-- ==== Sys2Proof/Word.lean ====
section
/-! DEFINITION. The word types of the BOE. Logical values are plain `Int`: "Logical values are mathematical integers ... A model may
use an unbounded integer type for every value and is then exact" (00_scope.md R7). A bit pattern is the `Nat` it stands for;
bit `i` has weight `2^i` (R9). -/

namespace Sys2Proof

/-- The control word on port `CW`, 16 bits (30_encoding.md R44). -/
abbrev ControlWord := BitVec 16

/-- The 4-bit type selector field `tsel` (30_encoding.md R44, R49). -/
abbrev TypeSelector := BitVec 4

end Sys2Proof
end

