-- ==== Sys2Proof/Syntax.lean ====
section
/-! DEFINITION. The 17 commands (30_encoding.md R48, opcode_table.json), and the reasons a control word spells no command (R52). -/

namespace Sys2Proof

/-- A command's operation with the two free fields of its control word: the type selector `tsel` and the bit `v`
(30_encoding.md R44: in every row of the opcode table `tsel` and `v` are free). Only `setbit` uses `v`; the others carry it
so that no bit of a control word is lost (R51, R60; log 16). The operands `A` and `B` are port values, no part of the
control word (R59). -/
inductive Instr where
  /-- op 0, R72 -/
  | and (tsel : TypeSelector) (v : Bool)
  /-- op 1, R73 -/
  | or (tsel : TypeSelector) (v : Bool)
  /-- op 2, R74 -/
  | xor (tsel : TypeSelector) (v : Bool)
  /-- op 3, R75 -/
  | not (tsel : TypeSelector) (v : Bool)
  /-- op 4, R79 -/
  | shl (tsel : TypeSelector) (v : Bool)
  /-- op 5, R80 -/
  | shr (tsel : TypeSelector) (v : Bool)
  /-- op 6, R81 -/
  | ushr (tsel : TypeSelector) (v : Bool)
  /-- op 7, R85 -/
  | rol (tsel : TypeSelector) (v : Bool)
  /-- op 8, R86 -/
  | ror (tsel : TypeSelector) (v : Bool)
  /-- op 9, R91 -/
  | popcnt (tsel : TypeSelector) (v : Bool)
  /-- op 10, R92 -/
  | getbit (tsel : TypeSelector) (v : Bool)
  /-- op 11, R93 -/
  | setbit (tsel : TypeSelector) (v : Bool)
  /-- op 12, R63 -/
  | chkovf (tsel : TypeSelector) (v : Bool)
  /-- op 13, R64 -/
  | clamp (tsel : TypeSelector) (v : Bool)
  /-- op 14, R65 -/
  | wrap (tsel : TypeSelector) (v : Bool)
  /-- op 15, R66 -/
  | cvt (tsel : TypeSelector) (v : Bool)
  /-- op 16, R62 -/
  | lookup (tsel : TypeSelector) (v : Bool)
  deriving DecidableEq, Repr

/-- Why a control word spells no command (30_encoding.md R52). -/
inductive InvalidReason where
  /-- `CW[15:10] != 0` -/
  | reservedControlBits
  /-- `CW[15:10] = 0` and `op` in 17..31 -/
  | invalidOperation
  deriving DecidableEq, Repr

/-- What the decode procedure answers: `command(...)` or `invalid(reason)` (30_encoding.md R54). -/
inductive Decoded where
  | command (i : Instr)
  | invalid (r : InvalidReason)
  deriving DecidableEq, Repr

/-- A command: one presentation of a control word and two operand values (30_encoding.md R43, 00_scope.md section 7). -/
structure Command where
  cw : ControlWord
  a : Int
  b : Int
  deriving DecidableEq, Repr

end Sys2Proof
end

