-- ==== Sys2Proof/WellFormed.lean ====
section
/-! DEFINITION. The checks on what a host presents: the control word (30_encoding.md R52), the port range (R46) and the canonical
encoding (R51). An `Instr` needs no check of its own: its fields have the widths of the control word's fields. -/

namespace Sys2Proof

/-- `CW[15:10] = 0`, read off the word's number `op + 32 * tsel + 512 * v + 1024 * rsv` (R44). -/
def ControlWord.reservedZero (w : ControlWord) : Bool := w.toNat / 1024 == 0

/-- `CW[4:0] <= 16`: the operation code names one of the 17 commands (R48). -/
def ControlWord.opDefined (w : ControlWord) : Bool := decide (w.toNat % 32 < 17)

/-- A control word that spells a command: neither reason of R52 applies. -/
def ControlWord.wellFormed (w : ControlWord) : Bool := w.reservedZero && w.opDefined

/-- `v` can be carried on a value port of `vw` bits: `-2^(vw-1) <= v <= 2^(vw-1) - 1` (R46, 00_scope.md R8). -/
abbrev FitsPort (vw : Nat) (v : Int) : Prop := -(2 : Int) ^ (vw - 1) ≤ v ∧ v ≤ (2 : Int) ^ (vw - 1) - 1

/-- A command the host can present at port width `vw`: "Integers outside the port range cannot be presented" (R46). -/
abbrev Command.Presentable (vw : Nat) (c : Command) : Prop := FitsPort vw c.a ∧ FitsPort vw c.b

/-- The bit `v` of a command. -/
def Instr.bitValue : Instr → Bool
  | .and _ v | .or _ v | .xor _ v | .not _ v | .shl _ v | .shr _ v | .ushr _ v | .rol _ v | .ror _ v
  | .popcnt _ v | .getbit _ v | .setbit _ v | .chkovf _ v | .clamp _ v | .wrap _ v | .cvt _ v | .lookup _ v => v

/-- The canonical encoding drives the unused bit `v` to zero (R51). A command that is not canonical is legal all the same. -/
def Instr.canonical : Instr → Bool
  | .setbit _ _ => true
  | i => !i.bitValue

end Sys2Proof
end

