-- ==== Sys2Proof/Decode.lean ====
section
/-! DEFINITION. The control word's fields, the decode procedure (30_encoding.md R54) and the encoder (R44, R48). The layout and the
codes are the spec's own decisions (log 13). -/

namespace Sys2Proof

/-- `CW[4:0]`, the operation code (R44). -/
def opField (w : ControlWord) : BitVec 5 := w.extractLsb' 0 5

/-- `CW[8:5]`, the type selector (R44). -/
def tselField (w : ControlWord) : TypeSelector := w.extractLsb' 5 4

/-- `CW[9]`, the bit value (R44, R50). -/
def vField (w : ControlWord) : Bool := w.getLsbD 9

/-- `CW[15:10]`, reserved (R44, R52). -/
def rsvField (w : ControlWord) : BitVec 6 := w.extractLsb' 10 6

/-- The operation a code names, with the two free fields; codes 17 to 31 name none (R48, R52). -/
def instrOfCode (op : Nat) (tsel : TypeSelector) (v : Bool) : Option Instr :=
  match op with
  | 0 => some (.and tsel v)
  | 1 => some (.or tsel v)
  | 2 => some (.xor tsel v)
  | 3 => some (.not tsel v)
  | 4 => some (.shl tsel v)
  | 5 => some (.shr tsel v)
  | 6 => some (.ushr tsel v)
  | 7 => some (.rol tsel v)
  | 8 => some (.ror tsel v)
  | 9 => some (.popcnt tsel v)
  | 10 => some (.getbit tsel v)
  | 11 => some (.setbit tsel v)
  | 12 => some (.chkovf tsel v)
  | 13 => some (.clamp tsel v)
  | 14 => some (.wrap tsel v)
  | 15 => some (.cvt tsel v)
  | 16 => some (.lookup tsel v)
  | _ => none

/-- The decode procedure of R54, total on every 16-bit word; the reserved bits are looked at first (R109). -/
def decode (w : ControlWord) : Decoded :=
  if rsvField w ≠ 0 then .invalid .reservedControlBits
  else
    match instrOfCode (opField w).toNat (tselField w) (vField w) with
    | some i => .command i
    | none => .invalid .invalidOperation

/-- The operation code of a command (R48). -/
def Instr.opcode : Instr → Nat
  | .and _ _ => 0
  | .or _ _ => 1
  | .xor _ _ => 2
  | .not _ _ => 3
  | .shl _ _ => 4
  | .shr _ _ => 5
  | .ushr _ _ => 6
  | .rol _ _ => 7
  | .ror _ _ => 8
  | .popcnt _ _ => 9
  | .getbit _ _ => 10
  | .setbit _ _ => 11
  | .chkovf _ _ => 12
  | .clamp _ _ => 13
  | .wrap _ _ => 14
  | .cvt _ _ => 15
  | .lookup _ _ => 16

/-- The type selector of a command (R49). -/
def Instr.tsel : Instr → TypeSelector
  | .and t _ | .or t _ | .xor t _ | .not t _ | .shl t _ | .shr t _ | .ushr t _ | .rol t _ | .ror t _
  | .popcnt t _ | .getbit t _ | .setbit t _ | .chkovf t _ | .clamp t _ | .wrap t _ | .cvt t _ | .lookup t _ => t

/-- The control word built from its fields: `CW = op + 32 * tsel + 512 * v`, reserved bits zero (R44, R56). -/
def controlWordOf (op : Nat) (tsel : TypeSelector) (v : Bool) : ControlWord :=
  BitVec.ofNat 16 (op + 32 * tsel.toNat + 512 * v.toNat)

/-- The control word of a command (R44, R48). -/
def encode (i : Instr) : ControlWord := controlWordOf i.opcode i.tsel i.bitValue

/-- The command the decoder reads from an instruction of `nbits` bits whose bits are `w`. A control word is one 16-bit port
value with no byte order (20_memory.md R34), so its bits are the table's bits; a longer instruction does not exist (R55),
so bits above 16 are refused (log 20). -/
def decodeTableWord (nbits w : Nat) : Option Instr :=
  if w % 2 ^ nbits < 2 ^ 16 then
    match decode (BitVec.ofNat 16 (w % 2 ^ nbits)) with
    | .command i => some i
    | .invalid _ => none
  else none

end Sys2Proof
end

