-- ==== Sys2Proof/Machine/State.lean ====
section
/-! DEFINITION. The machine's state: the values on the BOE's ports (30_encoding.md R43). The block itself stores nothing
(10_state.md R20, R22, R23, R27, R29), so the inputs are what the host holds on them (70_reset_and_hazards.md R119) and the
response is what the outputs have settled to (log 1). -/

namespace Sys2Proof.Machine

/-- A response: the ports of ONE response format and no other port (30_encoding.md R45, R53; log 9). -/
inductive Response where
  /-- format RV: port `Y` -/
  | rv (y : Int)
  /-- format RO: ports `OVF`, `Y` (= `value`), `WRAPPED`, `ORIG`; D0's `OverflowResult` (10_state.md R28) -/
  | ro (ovf : Bool) (value wrapped orig : Int)
  /-- format RD: ports `D_TCODE` (3 bits), `D_BITS` (7 bits), `D_SIGNED`, `D_MIN`, `D_MAX` -/
  | rd (tcode : BitVec 3) (bits : BitVec 7) (signed : Bool) (min max : Int)
  deriving DecidableEq, Repr

/-- The values on the ports. -/
structure State where
  /-- input port `CW`, 16 bits (R43, R44) -/
  cw : ControlWord
  /-- input port `A`, a signed value (R43, R46) -/
  a : Int
  /-- input port `B`, a signed value (R43, R46) -/
  b : Int
  /-- the response the last step settled to (R119); `none` before the first command, when the outputs "belong to no response"
  (70_reset_and_hazards.md R115). Once the host has changed an input and until the next step it is the response of the command
  before, and says nothing about the outputs (DESIGN CHOICE, log 22). -/
  response : Option Response
  deriving DecidableEq, Repr

/-- EMPTY: "The BOE raises no exception and has no fault output" (60_exceptions.md R103; log 12). Nothing raises one; safe. -/
inductive Fault where
  deriving DecidableEq, Repr

/-- The closed list of reasons for which the spec gives a command no meaning (60_exceptions.md R107; log 5). -/
inductive Refusal where
  /-- exec's arm of an instruction without a meaning; safe. No arm answers it: all 17 commands have their meaning. -/
  | notModelled (mnemonic : String)
  /-- `CW[15:10] != 0`; raised by `step` on a control word that spells no command (R52); safe: no response is claimed -/
  | reservedControlBits
  /-- `CW[4:0] >= 17`; raised by `step` on a control word that spells no command (R52, R106); safe: no response is claimed -/
  | invalidOperation
  /-- an operand of an engine command outside `C(B)`; raised by the meanings of op 0 to 11 (R71); safe: no response is claimed -/
  | operandOutOfDomain
  /-- a negative count or bit index; raised by the meanings of op 4 to 8, 10 and 11 (R78, R90); safe: no response is claimed -/
  | negativeCount
  deriving DecidableEq, Repr

/-- What a step or a meaning answers. -/
abbrev Result := Host.Outcome State Fault Refusal

/-- The machine before the first command. The spec has no state to reset (10_state.md R30, R115). DESIGN CHOICE (log 2): the
input ports, which the host drives, read zero until it does. There is no response (log 3). -/
def State.reset : State := { cw := 0, a := 0, b := 0, response := none }

end Sys2Proof.Machine
end

