-- ==== Sys2Proof/Machine/TypeTable.lean ====
section
/-! DEFINITION. The constant table of type descriptors `ROM[0..7]` and the selector's fallback (10_state.md R24, R25, R26, R31). -/

namespace Sys2Proof.Machine

/-- The eight type names (10_state.md R24, 00_scope.md R6). -/
inductive TypeName where
  | INT8 | UINT8 | INT16 | UINT16 | INT32 | UINT32 | INT64 | UINT64
  deriving DecidableEq, Repr

/-- One row of the type catalogue (R24). -/
structure Descriptor where
  name : TypeName
  bits : Nat
  signed : Bool
  min : Int
  max : Int
  deriving DecidableEq, Repr

/-- The descriptor table of R24. "A model makes it a constant function, not a state component" (R31). -/
def romTable : Vector Descriptor 8 := #v[
  ⟨.INT8, 8, true, -128, 127⟩,
  ⟨.UINT8, 8, false, 0, 255⟩,
  ⟨.INT16, 16, true, -32768, 32767⟩,
  ⟨.UINT16, 16, false, 0, 65535⟩,
  ⟨.INT32, 32, true, -2147483648, 2147483647⟩,
  ⟨.UINT32, 32, false, 0, 4294967295⟩,
  ⟨.INT64, 64, true, -9223372036854775808, 9223372036854775807⟩,
  ⟨.UINT64, 64, false, 0, 18446744073709551615⟩]

/-- `ROM[t]` (00_scope.md section 6). -/
def rom (t : Fin 8) : Descriptor := romTable[t]

/-- The canonical index: `tsel` if `tsel <= 7`, else 4 (INT32): an unknown name is never an error (R26). -/
def canon (tsel : TypeSelector) : Fin 8 := if h : tsel.toNat < 8 then ⟨tsel.toNat, h⟩ else 4

/-- The descriptor a command works with: `ROM[canon(tsel)]` (R26). -/
def descriptor (tsel : TypeSelector) : Descriptor := rom (canon tsel)

/-- The number of values of a type, `max - min + 1` (R25). -/
def Descriptor.range (d : Descriptor) : Int := d.max - d.min + 1

end Sys2Proof.Machine
end

