-- ==== Sys2Proof/Machine/Ops.lean ====
section
/-! DEFINITION. The primitives of 00_scope.md section 6 on values and patterns, and the named operations on the ports: reading
the control word, presenting a command, responding, refusing a control word. There is no memory, no register file and no
exception entry or return to define (20_memory.md R32, 10_state.md R20, 60_exceptions.md R103, R111, R112). -/

namespace Sys2Proof.Machine

/-- `MASK_B = 2^B - 1` (00_scope.md section 5). -/
def maskValue (B : Nat) : Nat := 2 ^ B - 1

/-- The coercion domain `C(B) = [-2^B, 2^B - 1]` (R10). -/
abbrev InCoercionDomain (B : Nat) (a : Int) : Prop := -(2 : Int) ^ B ≤ a ∧ a ≤ (2 : Int) ^ B - 1

/-- The register domain `Rg(B) = [-2^(B-1), 2^B - 1]` (R11). -/
abbrev InRegisterDomain (B : Nat) (a : Int) : Prop := -(2 : Int) ^ (B - 1) ≤ a ∧ a ≤ (2 : Int) ^ B - 1

/-- `upat_B(a)`: `a` if `a >= 0`, else `a + 2^B` (R10). -/
def upat (B : Nat) (a : Int) : Int := if 0 ≤ a then a else a + (2 : Int) ^ B

/-- `upat_B(a)` as a pattern; used on `C(B)` only, where it is not negative (R10). -/
def pattern (B : Nat) (a : Int) : Nat := (upat B a).toNat

/-- `mask_B(x) = x & MASK_B` (R12). -/
def maskTo (B : Nat) (x : Nat) : Nat := x &&& maskValue B

/-- `sx_B(x)`: `x - 2^B` if `x >= 2^(B-1)`, else `x` (R13); the same function as `sext_B`. -/
def signExtend (B : Nat) (x : Nat) : Int := if 2 ^ (B - 1) ≤ x then (x : Int) - (2 : Int) ^ B else (x : Int)

/-- `cmpl_B(u) = MASK_B - u`, every bit of the `B`-bit pattern inverted (R14). -/
def complement (B : Nat) (u : Nat) : Nat := maskValue B - u

/-- `amt_B(n) = n emod B`, used for `n >= 0` only (R15). -/
def reduceCount (B : Nat) (n : Int) : Nat := (n % (B : Int)).toNat

/-- `finish_B(x, s)`: mask, then sign-extend if `s` (R16, R70). -/
def finish (B : Nat) (x : Nat) (s : Bool) : Int := if s then signExtend B (maskTo B x) else (maskTo B x : Int)

/-- `wrapinto(v, MIN, MAX) = ((v - MIN) emod RANGE) + MIN` (R17; log 10). -/
def wrapInto (v lo hi : Int) : Int := (v - lo) % (hi - lo + 1) + lo

/-- The control word on port `CW`. The BOE fetches nothing (20_memory.md R40): the host presents the word. -/
def fetch (s : State) : ControlWord := s.cw

/-- The host presents a command: it drives the three input ports (R43, R108). DESIGN CHOICE (log 22): the field `response` keeps the
response of the last step until the next one; beside the new inputs it is no response of theirs (R119). -/
def State.present (s : State) (c : Command) : State := { s with cw := c.cw, a := c.a, b := c.b }

/-- `respond`: the outputs settle to the response; nothing else changes (10_state.md R20, 20_memory.md R36). -/
def respond (s : State) (r : Response) : Result := .next { s with response := some r }

/-- The refusal of a control word that spells no command (R52, R107). -/
def refuseInvalid (r : InvalidReason) : Result :=
  match r with
  | .reservedControlBits => .refused .reservedControlBits
  | .invalidOperation => .refused .invalidOperation

end Sys2Proof.Machine
end

