-- ==== Sys2Proof/Machine/Operands.lean ====
section
/-! DEFINITION. The operand forms: an engine operand with its domain check, a shift or rotate count, a bit index. Each passes what
it reads to the rest of the meaning, or refuses. The order of the checks is the order they are written in (R109). -/

namespace Sys2Proof.Machine

/-- `require a in C(B)`, then `upat_B(a)` (41_engine_logic.md R71). -/
def withPattern (B : Nat) (a : Int) (k : Nat → Result) : Result :=
  if InCoercionDomain B a then k (pattern B a) else .refused .operandOutOfDomain

/-- `require n >= 0`, then the count reduced modulo the width, `amt_B(n)` (42_engine_shift.md R78). -/
def withCount (B : Nat) (n : Int) (k : Nat → Result) : Result :=
  if 0 ≤ n then k (reduceCount B n) else .refused .negativeCount

/-- The bit index, not reduced (DEDUCED, log 21); negative ones are refused (44_engine_bits.md R90). -/
def withIndex (n : Int) (k : Nat → Result) : Result :=
  if 0 ≤ n then k n.toNat else .refused .negativeCount

end Sys2Proof.Machine
end

