-- ==== Sys2Proof/Machine/Bits.lean ====
section
/-! DEFINITION. The population counter and bit-indexed access: POPCNT, GETBIT, SETBIT (44_engine_bits.md). -/

namespace Sys2Proof.Machine

/-- Bit `i` of a pattern as 0 or 1: `(ua >> i) & 1` (R91, R92). -/
def bitAt (ua : Nat) (i : Nat) : Nat := ua >>> i &&& 1

/-- The number of set bits among positions `0 .. B-1` (R91). -/
def popCount (B : Nat) (ua : Nat) : Nat := ((List.range B).map (bitAt ua)).sum

/-- The pattern with bit `index` set (`v` true) or cleared; unchanged when the bit lies above the mask (R93). -/
def writeBit (B : Nat) (ua : Nat) (index : Nat) (v : Bool) : Nat :=
  if index ≤ B - 1 then
    if v then ua ||| 2 ^ index else ua - (ua &&& 2 ^ index)
  else ua

/-- POPCNT (R91). -/
def execPopcnt (tsel : TypeSelector) (s : State) : Result :=
  let B := (descriptor tsel).bits
  withPattern B s.a fun ua => respond s (.rv (popCount B ua))

/-- GETBIT (R92). -/
def execGetbit (tsel : TypeSelector) (s : State) : Result :=
  withPattern (descriptor tsel).bits s.a fun ua =>
    withIndex s.b fun index => respond s (.rv (bitAt ua index))

/-- SETBIT (R93). -/
def execSetbit (tsel : TypeSelector) (v : Bool) (s : State) : Result :=
  let d := descriptor tsel
  withPattern d.bits s.a fun ua =>
    withIndex s.b fun index =>
      respond s (.rv (finish d.bits (writeBit d.bits ua index v) d.signed))

end Sys2Proof.Machine
end

