-- ==== Sys2Proof/Machine/Logic.lean ====
section
/-! DEFINITION. The logic gates: AND, OR, XOR, NOT (41_engine_logic.md). -/

namespace Sys2Proof.Machine

/-- A two-operand gate: both operands coerced, the gate on the patterns, masked, never sign-extended (R70 to R74). -/
def logicGate (gate : Nat → Nat → Nat) (tsel : TypeSelector) (s : State) : Result :=
  let B := (descriptor tsel).bits
  withPattern B s.a fun ua =>
    withPattern B s.b fun ub =>
      respond s (.rv (finish B (gate ua ub) false))

/-- AND (R72). -/
def execAnd (tsel : TypeSelector) (s : State) : Result := logicGate (fun x y => x &&& y) tsel s

/-- OR (R73). -/
def execOr (tsel : TypeSelector) (s : State) : Result := logicGate (fun x y => x ||| y) tsel s

/-- XOR (R74). -/
def execXor (tsel : TypeSelector) (s : State) : Result := logicGate (fun x y => x ^^^ y) tsel s

/-- NOT (R75): the complement of the pattern, sign-extended if the type is signed. -/
def execNot (tsel : TypeSelector) (s : State) : Result :=
  let d := descriptor tsel
  withPattern d.bits s.a fun ua =>
    respond s (.rv (finish d.bits (complement d.bits ua) d.signed))

end Sys2Proof.Machine
end

