-- ==== Sys2Proof/Machine/Flags.lean ====
section
/-! DEFINITION. The one flag-like output, `overflow` (10_state.md R23, R28), with the comparators and the multiplexer behind it
(40_registry_policy.md R63, R69). No other command reports anything of the kind (60_exceptions.md R105). -/

namespace Sys2Proof.Machine

/-- Comparator `lo = (A < MIN)` (R69). -/
def belowMin (d : Descriptor) (a : Int) : Bool := decide (a < d.min)

/-- Comparator `hi = (A > MAX)` (R69). -/
def aboveMax (d : Descriptor) (a : Int) : Bool := decide (d.max < a)

/-- `OVF = lo or hi` (R63, R69). -/
def overflow (d : Descriptor) (a : Int) : Bool := belowMin d a || aboveMax d a

/-- Saturation to `[MIN, MAX]` (R64). -/
def saturate (d : Descriptor) (a : Int) : Int :=
  if belowMin d a then d.min else if aboveMax d a then d.max else a

/-- The policy-adjusted `value` of CHKOVF: unchanged in range, saturated for a signed type, wrapped for an unsigned one
(R63). -/
def policyValue (d : Descriptor) (a : Int) : Int :=
  if overflow d a then if d.signed then saturate d a else wrapInto a d.min d.max else a

end Sys2Proof.Machine
end

