-- ==== Sys2Proof/Machine/Registry.lean ====
section
/-! DEFINITION. The type registry and overflow policy selector: LOOKUP, CHKOVF, CLAMP, WRAP, CVT (40_registry_policy.md). This
family places no restriction on `A` and refuses nothing. -/

namespace Sys2Proof.Machine

/-- LOOKUP (R62): the descriptor; its name is given as the canonical index on `D_TCODE`. -/
def execLookup (tsel : TypeSelector) (s : State) : Result :=
  let d := descriptor tsel
  respond s (.rd (BitVec.ofNat 3 (canon tsel).val) (BitVec.ofNat 7 d.bits) d.signed d.min d.max)

/-- CHKOVF (R63): the overflow record, all four fields. `WRAPPED` is the wrapped value in range too (log 8). -/
def execChkovf (tsel : TypeSelector) (s : State) : Result :=
  let d := descriptor tsel
  respond s (.ro (overflow d s.a) (policyValue d s.a) (wrapInto s.a d.min d.max) s.a)

/-- CLAMP (R64): saturation whatever the signedness. -/
def execClamp (tsel : TypeSelector) (s : State) : Result :=
  respond s (.rv (saturate (descriptor tsel) s.a))

/-- WRAP (R65): modulo wrap whatever the signedness. -/
def execWrap (tsel : TypeSelector) (s : State) : Result :=
  let d := descriptor tsel
  respond s (.rv (wrapInto s.a d.min d.max))

/-- CVT (R66): `m <- A emod 2^B`, the low `B` bits of port `A`, sign-extended if `S`. For `A < 0` this is the spec's decision
D16 (PRESUMED, log 7). -/
def execCvt (tsel : TypeSelector) (s : State) : Result :=
  let d := descriptor tsel
  let m : Nat := (s.a % (2 : Int) ^ d.bits).toNat
  respond s (.rv (if d.signed then signExtend d.bits m else (m : Int)))

end Sys2Proof.Machine
end

