-- ==== Sys2Proof/Machine/Rotate.lean ====
section
/-! DEFINITION. The rotator: ROL, ROR (43_engine_rotate.md). Never sign-extended. -/

namespace Sys2Proof.Machine

/-- The pattern rotated left by the reduced count `k` (R85). -/
def rotateLeft (B k : Nat) (ua : Nat) : Nat := maskTo B ((ua <<< k &&& maskValue B) ||| ua >>> (B - k))

/-- The pattern rotated right by the reduced count `k` (R86). -/
def rotateRight (B k : Nat) (ua : Nat) : Nat := maskTo B (ua >>> k ||| (ua <<< (B - k) &&& maskValue B))

/-- ROL (R85). -/
def execRol (tsel : TypeSelector) (s : State) : Result :=
  let B := (descriptor tsel).bits
  withPattern B s.a fun ua =>
    withCount B s.b fun k =>
      respond s (.rv (rotateLeft B k ua))

/-- ROR (R86). -/
def execRor (tsel : TypeSelector) (s : State) : Result :=
  let B := (descriptor tsel).bits
  withPattern B s.a fun ua =>
    withCount B s.b fun k =>
      respond s (.rv (rotateRight B k ua))

end Sys2Proof.Machine
end

