-- ==== Sys2Proof/Machine/Shift.lean ====
section
/-! DEFINITION. The barrel shifter: SHL, SHR, USHR (42_engine_shift.md). -/

namespace Sys2Proof.Machine

/-- `((1 << k) - 1) << (B - k)`: `k` ones at bits `B-1 .. B-k`; 0 when `k = 0` (R80; `k` is the reduced count, 90 C4). -/
def signFill (B k : Nat) : Nat := (1 <<< k - 1) <<< (B - k)

/-- The result of SHR on a value, its pattern and the reduced count (R80). The shift is arithmetic when the type is signed and
the operand VALUE is negative, whatever the pattern's top bit is (90 C5); the logical path sign-extends for a signed
type. -/
def shiftRight (d : Descriptor) (a : Int) (ua : Nat) (k : Nat) : Int :=
  if d.signed && decide (a < 0) then signExtend d.bits (maskTo d.bits (ua >>> k ||| signFill d.bits k))
  else finish d.bits (ua >>> k) d.signed

/-- SHL (R79). -/
def execShl (tsel : TypeSelector) (s : State) : Result :=
  let d := descriptor tsel
  withPattern d.bits s.a fun ua =>
    withCount d.bits s.b fun k =>
      respond s (.rv (finish d.bits (ua <<< k) d.signed))

/-- SHR (R80). -/
def execShr (tsel : TypeSelector) (s : State) : Result :=
  let d := descriptor tsel
  withPattern d.bits s.a fun ua =>
    withCount d.bits s.b fun k =>
      respond s (.rv (shiftRight d s.a ua k))

/-- USHR (R81): always logical, no mask needed (90 C6). -/
def execUshr (tsel : TypeSelector) (s : State) : Result :=
  let d := descriptor tsel
  withPattern d.bits s.a fun ua =>
    withCount d.bits s.b fun k =>
      respond s (.rv (ua >>> k : Nat))

end Sys2Proof.Machine
end

