-- ==== Sys2Proof/Machine/Dispatch.lean ====
section
/-! DEFINITION. One arm per command. The bit `v` has no effect on any command but SETBIT (30_encoding.md R51). -/

namespace Sys2Proof.Machine

def exec (i : Instr) (s : State) : Host.Outcome State Fault Refusal :=
  match i with
  | .and tsel _ => Sys2Proof.Machine.execAnd tsel s
  | .or tsel _ => Sys2Proof.Machine.execOr tsel s
  | .xor tsel _ => Sys2Proof.Machine.execXor tsel s
  | .not tsel _ => Sys2Proof.Machine.execNot tsel s
  | .shl tsel _ => Sys2Proof.Machine.execShl tsel s
  | .shr tsel _ => Sys2Proof.Machine.execShr tsel s
  | .ushr tsel _ => Sys2Proof.Machine.execUshr tsel s
  | .rol tsel _ => Sys2Proof.Machine.execRol tsel s
  | .ror tsel _ => Sys2Proof.Machine.execRor tsel s
  | .popcnt tsel _ => Sys2Proof.Machine.execPopcnt tsel s
  | .getbit tsel _ => Sys2Proof.Machine.execGetbit tsel s
  | .setbit tsel v => Sys2Proof.Machine.execSetbit tsel v s
  | .chkovf tsel _ => Sys2Proof.Machine.execChkovf tsel s
  | .clamp tsel _ => Sys2Proof.Machine.execClamp tsel s
  | .wrap tsel _ => Sys2Proof.Machine.execWrap tsel s
  | .cvt tsel _ => Sys2Proof.Machine.execCvt tsel s
  | .lookup tsel _ => Sys2Proof.Machine.execLookup tsel s

end Sys2Proof.Machine
end

