-- ==== Sys2Proof/Machine/Step.lean ====
section
/-! DEFINITION. One step: the outputs settle to the response of the command the inputs carry (30_encoding.md R43, R54,
70_reset_and_hazards.md R119). The inputs are the host's and stay as they are, so a further step gives the same response
again (20_memory.md R36). -/

namespace Sys2Proof.Machine

def step (s : State) : Host.Outcome State Fault Refusal :=
  match decode (fetch s) with
  | .command i => exec i s
  | .invalid r => refuseInvalid r

/-- The host drives the table's word onto port `CW`; nothing else changes (log 14), the field `response` included (DESIGN CHOICE,
log 22). -/
def State.withFetchWord (s : State) (nbits w : Nat) : State := { s with cw := BitVec.ofNat 16 (w % 2 ^ nbits) }

end Sys2Proof.Machine
end

