-- ==== Sys2Proof/Machine/Assembly.lean ====
section
/-! DEFINITION. The one-line-per-command notation of 30_encoding.md R56: from a line of text to the control word and the port
values the assembler emits. What R56 leaves open (white space, letter case) is in log 17. -/

namespace Sys2Proof.Machine

/-- The four operand forms of R56. -/
inductive AsmForm where
  | twoOperands
  | oneOperand
  | setbitOperands
  | noOperands
  deriving DecidableEq, Repr

/-- The mnemonics of R48 with their operation codes and operand forms (R56). -/
def mnemonicTable : List (String × Nat × AsmForm) :=
  [("AND", 0, .twoOperands), ("OR", 1, .twoOperands), ("XOR", 2, .twoOperands), ("NOT", 3, .oneOperand),
   ("SHL", 4, .twoOperands), ("SHR", 5, .twoOperands), ("USHR", 6, .twoOperands), ("ROL", 7, .twoOperands),
   ("ROR", 8, .twoOperands), ("POPCNT", 9, .oneOperand), ("GETBIT", 10, .twoOperands),
   ("SETBIT", 11, .setbitOperands), ("CHKOVF", 12, .oneOperand), ("CLAMP", 13, .oneOperand),
   ("WRAP", 14, .oneOperand), ("CVT", 15, .oneOperand), ("LOOKUP", 16, .noOperands)]

/-- The type names of R56: the eight descriptors give `tsel` 0 to 7, `T8` to `T15` the unknown names. -/
def typeTable : List (String × TypeSelector) :=
  [("INT8", 0), ("UINT8", 1), ("INT16", 2), ("UINT16", 3), ("INT32", 4), ("UINT32", 5), ("INT64", 6), ("UINT64", 7),
   ("T8", 8), ("T9", 9), ("T10", 10), ("T11", 11), ("T12", 12), ("T13", 13), ("T14", 14), ("T15", 15)]

/-- A line read: operation code, operand form, type selector and the operands in order. -/
structure AsmLine where
  op : Nat
  form : AsmForm
  tsel : TypeSelector
  operands : List Int
  deriving DecidableEq, Repr

/-- What the assembler emits: `CW = op + 32 * tsel + 512 * v` with `v = 0` except for `SETBIT`, `A` the first operand, `B` the
second operand or 0 (R56). A line whose operands do not fit its form, or a `SETBIT` whose `v` is not 0 or 1, is none. -/
def AsmLine.assemble (l : AsmLine) : Option Command :=
  match l.form, l.operands with
  | .twoOperands, [a, b] => some ⟨controlWordOf l.op l.tsel false, a, b⟩
  | .oneOperand, [a] => some ⟨controlWordOf l.op l.tsel false, a, 0⟩
  | .setbitOperands, [a, index, v] =>
    if v = 0 then some ⟨controlWordOf l.op l.tsel false, a, index⟩
    else if v = 1 then some ⟨controlWordOf l.op l.tsel true, a, index⟩
    else none
  | .noOperands, [] => some ⟨controlWordOf l.op l.tsel false, 0, 0⟩
  | _, _ => none

/-- The value of a digit in a base up to 16. -/
def digitValue (base : Nat) (c : Char) : Option Nat :=
  let n := c.toNat
  let d :=
    if 48 ≤ n ∧ n ≤ 57 then n - 48
    else if 65 ≤ n ∧ n ≤ 70 then n - 55
    else if 97 ≤ n ∧ n ≤ 102 then n - 87
    else base
  if d < base then some d else none

/-- Digits most significant first, onto the value read so far. -/
def digitsValue (base : Nat) : List Char → Nat → Option Nat
  | [], acc => some acc
  | c :: cs, acc => (digitValue base c).bind fun d => digitsValue base cs (acc * base + d)

/-- A number of at least one digit. -/
def numberValue (base : Nat) (cs : List Char) : Option Nat := if cs.isEmpty then none else digitsValue base cs 0

/-- An integer literal: decimal with an optional leading `-`, or `0x` hexadecimal, or `0b` binary (R56). -/
def literalValue : List Char → Option Int
  | '0' :: 'x' :: cs => (numberValue 16 cs).map fun n : Nat => (n : Int)
  | '0' :: 'b' :: cs => (numberValue 2 cs).map fun n : Nat => (n : Int)
  | '-' :: cs => (numberValue 10 cs).map fun n : Nat => -(n : Int)
  | cs => (numberValue 10 cs).map fun n : Nat => (n : Int)

/-- Text after `--` is a comment (R56). -/
def stripComment : List Char → List Char
  | '-' :: '-' :: _ => []
  | c :: cs => c :: stripComment cs
  | [] => []

/-- The text without spaces at its two ends. -/
def trimSpaces (cs : List Char) : List Char := ((cs.dropWhile (· = ' ')).reverse.dropWhile (· = ' ')).reverse

/-- The pieces of a text between commas. -/
def splitCommas : List Char → List (List Char)
  | [] => [[]]
  | ',' :: cs => [] :: splitCommas cs
  | c :: cs =>
    match splitCommas cs with
    | [] => [[c]]
    | p :: ps => (c :: p) :: ps

/-- The operands of a line: none, or literals between commas. -/
def operandValues (cs : List Char) : Option (List Int) :=
  if cs.isEmpty then some [] else (splitCommas cs).mapM fun p => literalValue (trimSpaces p)

/-- One line `MNEMONIC.TYPE operands -- comment` (R56). -/
def parseLine (text : List Char) : Option AsmLine :=
  let line := trimSpaces (stripComment text)
  let head := line.takeWhile (· ≠ ' ')
  let mnemonic := head.takeWhile (· ≠ '.')
  let typeText := (head.dropWhile (· ≠ '.')).drop 1
  (mnemonicTable.find? fun m => m.1.toList = mnemonic).bind fun m =>
    (typeTable.find? fun t => t.1.toList = typeText).bind fun t =>
      (operandValues (trimSpaces (line.drop head.length))).map fun vs => ⟨m.2.1, m.2.2, t.2, vs⟩

/-- The assembler of R56: a line of text to `CW=0x.... A=... B=...`. -/
def assembleText (text : String) : Option Command := (parseLine text.toList).bind AsmLine.assemble

end Sys2Proof.Machine
end

