-- ==== Sys2Proof/Machine/Calls.lean ====
section
/-! DEFINITION. D0's calls and the command each maps to (30_encoding.md R57). -/

namespace Sys2Proof.Machine

/-- The register widths: `bits` is one of 8, 16, 32, 64 and nothing else (00_scope.md R5); a call with another `bits` has no
command (R57). -/
inductive Width where
  | w8 | w16 | w32 | w64
  deriving DecidableEq, Repr

/-- The width as a number of bits. -/
def Width.bits : Width → Nat
  | .w8 => 8
  | .w16 => 16
  | .w32 => 32
  | .w64 => 64

/-- `T(bits, signed)`: the selector of the type of that width and signedness (R49, R57). -/
def selectorOf (w : Width) (signed : Bool) : TypeSelector :=
  match w, signed with
  | .w8, true => 0
  | .w8, false => 1
  | .w16, true => 2
  | .w16, false => 3
  | .w32, true => 4
  | .w32, false => 5
  | .w64, true => 6
  | .w64, false => 7

/-- The selector of D0's `typeName`: 0 to 7 for the eight names (R49). Any of 8 to 15 stands for an unknown name; the model
writes 8 (log 18). -/
def selectorOfName : Option TypeName → TypeSelector
  | some .INT8 => 0
  | some .UINT8 => 1
  | some .INT16 => 2
  | some .UINT16 => 3
  | some .INT32 => 4
  | some .UINT32 => 5
  | some .INT64 => 6
  | some .UINT64 => 7
  | none => 8

/-- D0's calls (R57). A type name is `none` when it is unknown. -/
inductive Call where
  | and (a b : Int) (bits : Width)
  | or (a b : Int) (bits : Width)
  | xor (a b : Int) (bits : Width)
  | not (a : Int) (bits : Width) (signed : Bool)
  | leftShift (a n : Int) (bits : Width) (signed : Bool)
  | rightShift (a n : Int) (bits : Width) (signed : Bool)
  | unsignedRightShift (a n : Int) (bits : Width)
  | rotateLeft (a n : Int) (bits : Width)
  | rotateRight (a n : Int) (bits : Width)
  | popCount (a : Int) (bits : Width)
  | getBit (a index : Int) (bits : Width)
  | setBit (a index : Int) (bitValue : Bool) (bits : Width) (signed : Bool)
  | checkOverflow (value : Int) (typeName : Option TypeName)
  | clamp (value : Int) (typeName : Option TypeName)
  | wrap (value : Int) (typeName : Option TypeName)
  | convertToType (value : Int) (typeName : Option TypeName)
  | lookup (name : Option TypeName)
  deriving DecidableEq, Repr

/-- The command a call maps to. Where R57 writes `*` (either signedness gives the same response) this is the unsigned type,
as in the spec's vectors; unused inputs are zero (R51). -/
def Call.command : Call → Command
  | .and a b w => ⟨encode (.and (selectorOf w false) false), a, b⟩
  | .or a b w => ⟨encode (.or (selectorOf w false) false), a, b⟩
  | .xor a b w => ⟨encode (.xor (selectorOf w false) false), a, b⟩
  | .not a w signed => ⟨encode (.not (selectorOf w signed) false), a, 0⟩
  | .leftShift a n w signed => ⟨encode (.shl (selectorOf w signed) false), a, n⟩
  | .rightShift a n w signed => ⟨encode (.shr (selectorOf w signed) false), a, n⟩
  | .unsignedRightShift a n w => ⟨encode (.ushr (selectorOf w false) false), a, n⟩
  | .rotateLeft a n w => ⟨encode (.rol (selectorOf w false) false), a, n⟩
  | .rotateRight a n w => ⟨encode (.ror (selectorOf w false) false), a, n⟩
  | .popCount a w => ⟨encode (.popcnt (selectorOf w false) false), a, 0⟩
  | .getBit a index w => ⟨encode (.getbit (selectorOf w false) false), a, index⟩
  | .setBit a index v w signed => ⟨encode (.setbit (selectorOf w signed) v), a, index⟩
  | .checkOverflow value name => ⟨encode (.chkovf (selectorOfName name) false), value, 0⟩
  | .clamp value name => ⟨encode (.clamp (selectorOfName name) false), value, 0⟩
  | .wrap value name => ⟨encode (.wrap (selectorOfName name) false), value, 0⟩
  | .convertToType value name => ⟨encode (.cvt (selectorOfName name) false), value, 0⟩
  | .lookup name => ⟨encode (.lookup (selectorOfName name) false), 0, 0⟩

end Sys2Proof.Machine
end

