-- ==== Sys2Proof/Machine/Script.lean ====
section
/-! DEFINITION. The host's script notation (30_encoding.md R58): commands presented one after the other, a later operand naming a
field of an earlier response. "The host performs the substitution; the BOE sees only the resulting integers." -/

namespace Sys2Proof.Machine

/-- A field of a response, as R58 writes it after `%k`. -/
inductive ResponseField where
  /-- `%k`, the `Y` value of an RV response -/
  | y
  | value
  | wrapped
  | orig
  | ovf
  | bits
  | min
  | max
  | signed
  | tcode
  deriving DecidableEq, Repr

/-- The field of a response as an integer; none where the response's format has no such field. -/
def Response.field : Response → ResponseField → Option Int
  | .rv y, .y => some y
  | .ro _ value _ _, .y => some value
  | .ro _ value _ _, .value => some value
  | .ro _ _ wrapped _, .wrapped => some wrapped
  | .ro _ _ _ orig, .orig => some orig
  | .ro ovf _ _ _, .ovf => some (ovf.toNat : Int)
  | .rd _ bits _ _ _, .bits => some (bits.toNat : Int)
  | .rd _ _ _ min _, .min => some min
  | .rd _ _ _ _ max, .max => some max
  | .rd _ _ signed _ _, .signed => some (signed.toNat : Int)
  | .rd tcode _ _ _ _, .tcode => some (tcode.toNat : Int)
  | _, _ => none

/-- An operand in a script: an integer, or a field of the `k`-th command's response (`k` counts from 1). -/
inductive ScriptOperand where
  | literal (v : Int)
  | response (k : Nat) (f : ResponseField)
  deriving DecidableEq, Repr

/-- The integer the host substitutes, from the responses so far, oldest first. -/
def ScriptOperand.resolve (rs : List Response) : ScriptOperand → Option Int
  | .literal v => some v
  | .response k f => if k = 0 then none else (rs[k - 1]?).bind fun r => r.field f

/-- A script line: `%k = COMMAND`, or `host: ...`, which the BOE does not see. -/
inductive ScriptLine where
  | command (i : Instr) (a b : ScriptOperand)
  | host
  deriving DecidableEq, Repr

/-- How a script ends: all lines done, with the responses the host has collected; or at a command the spec refuses, at one
whose operand names no response there is, or at a step that faults (none does: `Fault` is empty). -/
inductive ScriptOutcome where
  | finished (rs : List Response)
  | refused (r : Refusal)
  | noSuchResponse
  deriving DecidableEq, Repr

/-- The host runs a script: it resolves the operands, presents the command, and collects the response. -/
def runScript : List ScriptLine → List Response → State → ScriptOutcome
  | [], rs, _ => .finished rs
  | .host :: rest, rs, s => runScript rest rs s
  | .command i a b :: rest, rs, s =>
    match a.resolve rs, b.resolve rs with
    | some va, some vb =>
      match step (s.present ⟨encode i, va, vb⟩) with
      | .next t =>
        match t.response with
        | some r => runScript rest (rs ++ [r]) t
        | none => .noSuchResponse
      | .refused r => .refused r
      | .fault f => nomatch f
    | _, _ => .noSuchResponse

end Sys2Proof.Machine
end

