-- ==== Sys2Proof/Config.lean ====
section
/-! DEFINITION. What an implementation fixes: the width `VW` of the value ports (00_scope.md R8, 92 D2), the one parameter the
spec leaves open. No rule's result depends on it. -/

namespace Sys2Proof.Config

/-- The least width R8 allows: `VW >= 65`. -/
def minPortWidth : Nat := 65

/-- R8's default width: "at minimum native-128-bit". -/
def defaultPortWidth : Nat := 128

/-- DESIGN CHOICE (log 4): by how much the implementation's `VW` exceeds the least width. No value is known of it. -/
opaque portWidthExcess : Nat

/-- `VW`, the implementation's value port width: some width of at least 65 bits (R8). -/
def portWidth : Nat := minPortWidth + portWidthExcess

end Sys2Proof.Config
end

