-- ==== Sys2Proof/Machine/Ports.lean ====
section
/-! DEFINITION. The ports as bit vectors (30_encoding.md R43, R46): how a logical value is carried on a value port of `vw` bits, and
which ports a response drives (R45, R53). No meaning depends on this file: the meanings work on the values (R7, R8). -/

namespace Sys2Proof.Machine

/-- The ports of R43. -/
inductive Port where
  | CW | A | B | Y | OVF | WRAPPED | ORIG | D_TCODE | D_BITS | D_SIGNED | D_MIN | D_MAX
  deriving DecidableEq, Repr

/-- A port's width at value port width `vw` (R43). -/
def Port.width (vw : Nat) : Port → Nat
  | .CW => 16
  | .A => vw
  | .B => vw
  | .Y => vw
  | .OVF => 1
  | .WRAPPED => vw
  | .ORIG => vw
  | .D_TCODE => 3
  | .D_BITS => 7
  | .D_SIGNED => 1
  | .D_MIN => vw
  | .D_MAX => vw

/-- An integer on a `vw`-bit value port: the bit vector `v emod 2^vw` (R46). -/
def portBits (vw : Nat) (v : Int) : BitVec vw := BitVec.ofInt vw v

/-- The integer a value port carries: two's complement at width `vw` (R46). -/
def portValue {vw : Nat} (p : BitVec vw) : Int := p.toInt

/-- What the host drives on an input port; `none` for an output port. -/
def State.onInput (vw : Nat) (s : State) : (p : Port) → Option (BitVec (p.width vw))
  | .CW => some s.cw
  | .A => some (portBits vw s.a)
  | .B => some (portBits vw s.b)
  | _ => none

/-- What a response shows on an output port; `none` for a port outside its format, which "is not part of the response and a
model must not expose it" (R45, R53). -/
def Response.onPort (vw : Nat) : Response → (p : Port) → Option (BitVec (p.width vw))
  | .rv y, .Y => some (portBits vw y)
  | .ro ovf _ _ _, .OVF => some (BitVec.ofBool ovf)
  | .ro _ value _ _, .Y => some (portBits vw value)
  | .ro _ _ wrapped _, .WRAPPED => some (portBits vw wrapped)
  | .ro _ _ _ orig, .ORIG => some (portBits vw orig)
  | .rd tcode _ _ _ _, .D_TCODE => some tcode
  | .rd _ bits _ _ _, .D_BITS => some bits
  | .rd _ _ signed _ _, .D_SIGNED => some (BitVec.ofBool signed)
  | .rd _ _ _ min _, .D_MIN => some (portBits vw min)
  | .rd _ _ _ _ max, .D_MAX => some (portBits vw max)
  | _, _ => none

end Sys2Proof.Machine
end

