-- ==== Sys2Proof/Safety.lean ====
section
/-! DEFINITION. What counts as a safe run: the table of refusals (60_exceptions.md R107, R109) and the host's duty not to run into it
(R108), the response formats (30_encoding.md R53), and the ranges of the values on the ports (R46, R47). Written from the
rules' own tables, beside the meanings and not through them. -/

namespace Sys2Proof.Safety

open Sys2Proof.Machine

/-- The operation code of a control word, `CW[4:0]`. -/
def opNumber (w : ControlWord) : Nat := w.toNat % 32

/-- The width a control word selects: `B = 8 * 2^(t >> 1)` for the canonical index `t`, 4 for `CW[8:5] >= 8`
(10_state.md R24, R26). -/
def widthOf (w : ControlWord) : Nat :=
  let tsel := w.toNat / 32 % 16
  let t := if tsel ≤ 7 then tsel else 4
  8 * 2 ^ (t / 2)

/-- Outside the coercion domain: `x < -2^B or x > 2^B - 1` (R107). -/
def outOfDomain (B : Nat) (x : Int) : Bool := decide (x < -(2 : Int) ^ B) || decide ((2 : Int) ^ B - 1 < x)

/-- The table of R107 in the order of R109: the reason a command is refused, or none. -/
def firstRefusal (c : Command) : Option Refusal :=
  let op := opNumber c.cw
  let B := widthOf c.cw
  if 1024 ≤ c.cw.toNat then some .reservedControlBits
  else if 17 ≤ op then some .invalidOperation
  else if op ≤ 11 && outOfDomain B c.a then some .operandOutOfDomain
  else if op ≤ 2 && outOfDomain B c.b then some .operandOutOfDomain
  else if ((4 ≤ op && op ≤ 8) || op == 10 || op == 11) && decide (c.b < 0) then some .negativeCount
  else none

/-- The host keeps its duties 2, 3 and 4 of R108 in presenting this command. -/
def dutyKept (c : Command) : Bool := firstRefusal c == none

/-- The command on a state's input ports. -/
def presented (s : State) : Command := ⟨s.cw, s.a, s.b⟩

/-- A state in which the next step is safe: the host keeps its duties. -/
def SafeState (s : State) : Prop := dutyKept (presented s) = true

/-- The response formats (R53). -/
inductive Format where
  | RV | RO | RD
  deriving DecidableEq, Repr

/-- The format of a command, fixed by `op`: RO for CHKOVF, RD for LOOKUP, RV for the others (R53). -/
def formatOf (i : Instr) : Format := if i.opcode = 12 then .RO else if i.opcode = 16 then .RD else .RV

/-- The format of a response. -/
def responseFormat : Response → Format
  | .rv _ => .RV
  | .ro _ _ _ _ => .RO
  | .rd _ _ _ _ _ => .RD

/-- The ports that form a response of each format (R53's table). -/
def portsOf : Format → List Port
  | .RV => [.Y]
  | .RO => [.OVF, .Y, .WRAPPED, .ORIG]
  | .RD => [.D_TCODE, .D_BITS, .D_SIGNED, .D_MIN, .D_MAX]

/-- The range of R47: `[-2^63, 2^64 - 1]`. -/
abbrev InClosure (v : Int) : Prop := -(2 : Int) ^ 63 ≤ v ∧ v ≤ (2 : Int) ^ 64 - 1

/-- Every value of the response lies in R47's range, except `ORIG`, which equals `A`. -/
def Closed (a : Int) : Response → Prop
  | .rv y => InClosure y
  | .ro _ value wrapped orig => InClosure value ∧ InClosure wrapped ∧ orig = a
  | .rd _ _ _ min max => InClosure min ∧ InClosure max

/-- Every value of a response can be carried on value ports of `vw` bits. -/
def ResponseFits (vw : Nat) : Response → Prop
  | .rv y => FitsPort vw y
  | .ro _ value wrapped orig => FitsPort vw value ∧ FitsPort vw wrapped ∧ FitsPort vw orig
  | .rd _ _ _ min max => FitsPort vw min ∧ FitsPort vw max

/-- Every value on the ports can be carried at value port width `vw` (R46, R47). -/
def PortsFit (vw : Nat) (s : State) : Prop :=
  FitsPort vw s.a ∧ FitsPort vw s.b ∧ ∀ r, s.response = some r → ResponseFits vw r

/-- The ports of the machine as built, at its own width `VW`. -/
def PortsFitHere (s : State) : Prop := PortsFit Config.portWidth s

/-- The step answers this response and changes nothing but the output ports. -/
def Answers (s : State) (r : Response) : Prop := step s = .next { s with response := some r }

/-- What a command gets: a response, or the spec's refusal (30_encoding.md R43: "Command -> Response-or-refusal"). -/
inductive Reply where
  | response (r : Option Response)
  | refused (q : Refusal)
  deriving DecidableEq, Repr

/-- The reply in what a step or a meaning answers. -/
def reply : Result → Reply
  | .next s => .response s.response
  | .refused q => .refused q
  | .fault f => nomatch f

/-- The low `B` bits of the port that carries `x`, as an unsigned number: `x emod 2^B`, which on `C(B)` is `upat_B(x)`
(00_scope.md R10, 30_encoding.md R46). -/
def patternOf (B : Nat) (x : Int) : Nat := (x % (2 : Int) ^ B).toNat

/-- A `B`-bit pattern read as a value: its top bit is the sign if `signed`, plain magnitude if not (00_scope.md section 7). -/
def readAs (signed : Bool) (B : Nat) (x : Nat) : Int :=
  if signed = true ∧ 2 ^ (B - 1) ≤ x then (x : Int) - (2 : Int) ^ B else (x : Int)

end Sys2Proof.Safety
end

