-- ==== Sys2Proof/Certificates/Slice0/Obligations.lean ====
section
/-! DEFINITION. The statements for the provers, each from a numbered rule of spec/ or derived from its sections. Values are written
in plain integer arithmetic (`patternOf`, `readAs` of Safety.lean), beside the meanings' own operations. In every statement
about a command, a next state of the form `{ s with response := some r }` is its frame: no input port changes. -/

open Sys2Proof Sys2Proof.Machine Sys2Proof.Safety

section Encoding

/-- R44, R48, R54: every command's control word decodes to that command, with every `tsel` and every `v`. -/
def Obligations.DecodeEncodeEveryCommand : Prop :=
  ∀ i : Instr, decode (encode i) = .command i

/-- R44, R54: a control word that decodes is the encoding of what it decodes to, so no bit of it is dropped. -/
def Obligations.EncodeDecodeEveryWord : Prop :=
  ∀ (w : ControlWord) (i : Instr), decode w = .command i → encode i = w

/-- R52: the two kinds of control word that spell no command, each with its reason, and the model refuses them. -/
def Obligations.InvalidWordsRefused : Prop :=
  ∀ w : ControlWord,
    (decode w = .invalid .reservedControlBits ↔ w.toNat / 1024 ≠ 0) ∧
    (decode w = .invalid .invalidOperation ↔ w.toNat / 1024 = 0 ∧ 17 ≤ w.toNat % 32 ∧ w.toNat % 32 ≤ 31) ∧
    (∀ s : State, s.cw = w → w.toNat / 1024 ≠ 0 → step s = .refused .reservedControlBits) ∧
    (∀ s : State, s.cw = w → w.toNat / 1024 = 0 → 17 ≤ w.toNat % 32 → step s = .refused .invalidOperation)

/-- R60: every control word is one of the 17 commands or refused. That exactly 544 of the 65536 words are commands is a count the
spec marks as derived, so this statement is derived. -/
def Obligations.CommandWordsCounted : Prop :=
  (∀ s : State, (∃ i : Instr, encode i = s.cw ∧ i.opcode < 17 ∧ step s = exec i s) ∨
    step s = .refused .reservedControlBits ∨ step s = .refused .invalidOperation) ∧
  ((List.range 65536).filter fun n =>
    match decode (BitVec.ofNat 16 n) with
    | .command _ => true
    | .invalid _ => false).length = 17 * 16 * 2

/-- R48, R52, R54: control words of 95_test_vectors.md, written out bit by bit, decode to the commands they spell; two words spell
none, and a reserved bit is reported before an undefined operation. -/
def Obligations.WrittenWordsDecode : Prop :=
  decode 0b0000000000100000#16 = .command (.and 1 false) ∧
  decode 0b0000000010000100#16 = .command (.shl 4 false) ∧
  decode 0b0000000000100111#16 = .command (.rol 1 false) ∧
  decode 0b0000001000001011#16 = .command (.setbit 0 true) ∧
  decode 0b0000000110001100#16 = .command (.chkovf 12 false) ∧
  decode 0b0000001111110000#16 = .command (.lookup 15 true) ∧
  decode 0b0000000000010001#16 = .invalid .invalidOperation ∧
  decode 0b0000010000010001#16 = .invalid .reservedControlBits

end Encoding

section Machine

/-- R43, R54: a step runs the command the control word decodes to, on the values the ports carry. -/
def Obligations.StepRunsDecodedCommand : Prop :=
  ∀ (s : State) (i : Instr), decode s.cw = .command i → step s = exec i s

/-- R107, R109: a step refuses exactly by the table of R107, and with the reason that is first in R109's order. -/
def Obligations.StepRefusesByTheTable : Prop :=
  ∀ (s : State) (q : Refusal), step s = .refused q ↔ firstRefusal (presented s) = some q

/-- R42: every command that is not refused has a response, and the host's duties (R108) are what keeps one from being
refused. -/
def Obligations.SafeCommandsRespond : Prop :=
  ∀ s : State,
    (SafeState s ↔ ∃ r, Answers s r) ∧
    ((∀ q, step s ≠ .refused q) → ∃ r, Answers s r)

/-- R20, R36: a step changes nothing but the response; the command on the input ports stays. -/
def Obligations.StepChangesResponseOnly : Prop :=
  ∀ s t : State, step s = .next t → ∃ r, t = { s with response := some r }

/-- R20, R37: the reply to a command depends on that command alone, whatever response was there before. -/
def Obligations.ReplyDependsOnCommandAlone : Prop :=
  ∀ s t : State, presented s = presented t → reply (step s) = reply (step t)

/-- R36: presenting the same command twice gives the same response both times. -/
def Obligations.RepresentingIsIdempotent : Prop :=
  ∀ s t : State, step s = .next t → step t = .next t

/-- R45, R53: the response's format is fixed by `op`, never by the operand values, and it shows the ports of that format and no
other port; an overflow record's `value` is on `Y`, a lookup's fields are on the `D_` ports. -/
def Obligations.FormatFixedByOp : Prop :=
  (∀ (vw : Nat) (i : Instr) (s t : State), exec i s = .next t →
    ∃ r, t.response = some r ∧ responseFormat r = formatOf i ∧
      ∀ p : Port, (r.onPort vw p).isSome = true ↔ p ∈ portsOf (formatOf i)) ∧
  (∀ (vw : Nat) (y : Int), (Response.rv y).onPort vw .Y = some (portBits vw y)) ∧
  (∀ (vw : Nat) (ovf : Bool) (value wrapped orig : Int),
    (Response.ro ovf value wrapped orig).onPort vw .OVF = some (BitVec.ofBool ovf) ∧
    (Response.ro ovf value wrapped orig).onPort vw .Y = some (portBits vw value) ∧
    (Response.ro ovf value wrapped orig).onPort vw .WRAPPED = some (portBits vw wrapped) ∧
    (Response.ro ovf value wrapped orig).onPort vw .ORIG = some (portBits vw orig)) ∧
  (∀ (vw : Nat) (tcode : BitVec 3) (bits : BitVec 7) (signed : Bool) (min max : Int),
    (Response.rd tcode bits signed min max).onPort vw .D_TCODE = some tcode ∧
    (Response.rd tcode bits signed min max).onPort vw .D_BITS = some bits ∧
    (Response.rd tcode bits signed min max).onPort vw .D_SIGNED = some (BitVec.ofBool signed) ∧
    (Response.rd tcode bits signed min max).onPort vw .D_MIN = some (portBits vw min) ∧
    (Response.rd tcode bits signed min max).onPort vw .D_MAX = some (portBits vw max))

/-- R47: closure. Every value of a response lies in `[-2^63, 2^64 - 1]`, except `ORIG`, which equals `A`; the ranges by
operation; and everything fits a signed port of 65 bits or more. The spec marks R47 as derived from the instructions' own ranges,
and CVT's range for a negative `A` rests on decision D16, from general knowledge (log 7, PRESUMED). -/
def Obligations.ResponsesAreClosed : Prop :=
  ∀ (i : Instr) (s t : State), exec i s = .next t →
    ∃ r, t.response = some r ∧ Closed s.a r ∧
      (i.opcode ≤ 11 → ∃ y, r = .rv y ∧
        -(2 : Int) ^ ((descriptor i.tsel).bits - 1) ≤ y ∧ y ≤ (2 : Int) ^ (descriptor i.tsel).bits - 1) ∧
      (i.opcode = 9 → ∃ y, r = .rv y ∧ 0 ≤ y ∧ y ≤ ((descriptor i.tsel).bits : Int)) ∧
      (i.opcode = 10 → r = .rv 0 ∨ r = .rv 1) ∧
      (13 ≤ i.opcode → i.opcode ≤ 15 → ∃ y, r = .rv y ∧ (descriptor i.tsel).min ≤ y ∧ y ≤ (descriptor i.tsel).max) ∧
      (i.opcode = 12 → ∃ ovf value wrapped, r = .ro ovf value wrapped s.a ∧
        (descriptor i.tsel).min ≤ value ∧ value ≤ (descriptor i.tsel).max ∧
        (descriptor i.tsel).min ≤ wrapped ∧ wrapped ≤ (descriptor i.tsel).max) ∧
      (i.opcode = 16 → ∃ tcode bits signed, r = .rd tcode bits signed (descriptor i.tsel).min (descriptor i.tsel).max) ∧
      (∀ vw, 65 ≤ vw → FitsPort vw s.a → ResponseFits vw r)

/-- R8, R46, R47: an invariant of every step, for every port width the spec allows: if the values on the ports can be carried
at that width, they still can after the step. For CVT of a negative value the response is that of log 7. -/
def Obligations.StepKeepsPortsFitting : Prop :=
  ∀ (vw : Nat) (s t : State), 65 ≤ vw → PortsFit vw s → step s = .next t → PortsFit vw t

/-- The invariant holds at reset, at every width. The values of the input ports there are the model's choice (log 2); that no
response is there is log 3. -/
def Obligations.ResetPortsFit : Prop :=
  ∀ vw : Nat, 65 ≤ vw → PortsFit vw State.reset

/-- R115: before the host presents its first command the output ports belong to no response (log 3). -/
def Obligations.ResetHasNoResponse : Prop :=
  State.reset.response = none

/-- R51: an input that R48's table marks unused has no effect: `B` for NOT, POPCNT, CHKOVF, CLAMP, WRAP, CVT, `A` and `B` for
LOOKUP, `v` for every operation but SETBIT. No domain check applies to it. The canonical encoding, which the assembler emits,
drives it to zero. -/
def Obligations.UnusedInputsIgnored : Prop :=
  (∀ (tsel : TypeSelector) (v w : Bool) (s : State) (n : Int),
    reply (exec (.not tsel v) s) = reply (exec (.not tsel w) { s with b := n }) ∧
    reply (exec (.popcnt tsel v) s) = reply (exec (.popcnt tsel w) { s with b := n }) ∧
    reply (exec (.chkovf tsel v) s) = reply (exec (.chkovf tsel w) { s with b := n }) ∧
    reply (exec (.clamp tsel v) s) = reply (exec (.clamp tsel w) { s with b := n }) ∧
    reply (exec (.wrap tsel v) s) = reply (exec (.wrap tsel w) { s with b := n }) ∧
    reply (exec (.cvt tsel v) s) = reply (exec (.cvt tsel w) { s with b := n })) ∧
  (∀ (tsel : TypeSelector) (v w : Bool) (s : State) (m n : Int),
    reply (exec (.lookup tsel v) s) = reply (exec (.lookup tsel w) { s with a := m, b := n })) ∧
  (∀ (tsel : TypeSelector) (v w : Bool) (s : State),
    exec (.and tsel v) s = exec (.and tsel w) s ∧ exec (.or tsel v) s = exec (.or tsel w) s ∧
    exec (.xor tsel v) s = exec (.xor tsel w) s ∧ exec (.shl tsel v) s = exec (.shl tsel w) s ∧
    exec (.shr tsel v) s = exec (.shr tsel w) s ∧ exec (.ushr tsel v) s = exec (.ushr tsel w) s ∧
    exec (.rol tsel v) s = exec (.rol tsel w) s ∧ exec (.ror tsel v) s = exec (.ror tsel w) s ∧
    exec (.getbit tsel v) s = exec (.getbit tsel w) s) ∧
  (∀ (l : AsmLine) (c : Command), l.op ≤ 16 → l.assemble = some c →
    (l.form = .oneOperand → c.b = 0) ∧ (l.form = .noOperands → c.a = 0 ∧ c.b = 0) ∧
    (l.form ≠ .setbitOperands → vField c.cw = false))

/-- R46: on a value port of `vw` bits an integer in range is carried as `v emod 2^vw` and read back unchanged; the port's top bit
is 1 exactly when the value is negative; for a value of `C(B)` the port's low `B` bits are `upat_B`. -/
def Obligations.ValuePortsCarryIntegers : Prop :=
  ∀ (vw : Nat) (x : Int), 65 ≤ vw → FitsPort vw x →
    ((portBits vw x).toNat : Int) = x % (2 : Int) ^ vw ∧
    portValue (portBits vw x) = x ∧
    ((portBits vw x).msb = true ↔ x < 0) ∧
    (∀ tsel : TypeSelector, InCoercionDomain (descriptor tsel).bits x →
      (((portBits vw x).toNat % 2 ^ (descriptor tsel).bits : Nat) : Int) = upat (descriptor tsel).bits x)

/-- R22, R37, R117: a whole script of commands gives the same responses whatever the machine's state when it starts. What a script
is (host lines without effect, where it stops, how a response is named) is the model's DESIGN CHOICE of log 19, after R58. -/
def Obligations.ScriptsIgnoreStartState : Prop :=
  ∀ (ls : List ScriptLine) (rs : List Response) (s t : State), runScript ls rs s = runScript ls rs t

end Machine

section Primitives

/-- R10, R11: on `C(B)` the coercion gives a pattern in `[0, 2^B - 1]`, the Euclidean remainder modulo `2^B`; the register domain
is part of `C(B)`. -/
def Obligations.CoercionIsRemainder : Prop :=
  ∀ (B : Nat) (a : Int), 1 ≤ B →
    (InRegisterDomain B a → InCoercionDomain B a) ∧
    (InCoercionDomain B a → upat B a = a % (2 : Int) ^ B ∧ 0 ≤ upat B a ∧ upat B a ≤ (2 : Int) ^ B - 1)

/-- R17: the wrap formula is D0's double reduction under each of the three usual remainder conventions, and its result is the
unique integer of the interval congruent to the value. -/
def Obligations.WrapFormulaConventions : Prop :=
  ∀ v lo hi : Int, lo ≤ hi →
    wrapInto v lo hi = Int.tmod (Int.tmod (v - lo) (hi - lo + 1) + (hi - lo + 1)) (hi - lo + 1) + lo ∧
    wrapInto v lo hi = Int.fmod (Int.fmod (v - lo) (hi - lo + 1) + (hi - lo + 1)) (hi - lo + 1) + lo ∧
    wrapInto v lo hi = ((v - lo) % (hi - lo + 1) + (hi - lo + 1)) % (hi - lo + 1) + lo ∧
    (∀ y : Int, y = wrapInto v lo hi ↔ lo ≤ y ∧ y ≤ hi ∧ ∃ q : Int, v = y + q * (hi - lo + 1))

/-- R24, R25: the eight descriptors in D0's listing order, by the closed form, with D0's invariants. -/
def Obligations.DescriptorTable : Prop :=
  ((List.finRange 8).map fun t => (rom t).name) = [.INT8, .UINT8, .INT16, .UINT16, .INT32, .UINT32, .INT64, .UINT64] ∧
  ∀ t : Fin 8,
    (rom t).bits = 8 * 2 ^ (t.val / 2) ∧ ((rom t).signed = true ↔ t.val % 2 = 0) ∧
    (rom t).max - (rom t).min + 1 = (2 : Int) ^ (rom t).bits ∧
    ((rom t).signed = true →
      (rom t).min = -(2 : Int) ^ ((rom t).bits - 1) ∧ (rom t).max = (2 : Int) ^ ((rom t).bits - 1) - 1) ∧
    ((rom t).signed = false → (rom t).min = 0 ∧ (rom t).max = (2 : Int) ^ (rom t).bits - 1)

/-- R26: lookup never fails: the canonical index is the selector up to 7, and 4 (INT32) above; every command works with the
descriptor of its canonical index, so two selectors of one canonical index give the same result. -/
def Obligations.UnknownNamesAreInt32 : Prop :=
  (∀ tsel : TypeSelector,
    (tsel.toNat ≤ 7 → (canon tsel).val = tsel.toNat) ∧ (8 ≤ tsel.toNat → (canon tsel).val = 4) ∧
    descriptor tsel = rom (canon tsel)) ∧
  (∀ (i j : Instr) (s : State), i.opcode = j.opcode → i.bitValue = j.bitValue → canon i.tsel = canon j.tsel →
    exec i s = exec j s) ∧
  (∀ (tsel : TypeSelector) (v : Bool) (s : State), ∃ r, exec (.lookup tsel v) s = .next { s with response := some r })

end Primitives

section Registry

/-- R62: LOOKUP answers the descriptor of the canonical index, whatever the operands, and never fails. The descriptor is written
by R24's closed form. -/
def Obligations.LookupResponds : Prop :=
  ∀ (tsel : TypeSelector) (v : Bool) (s : State),
    let t := if tsel.toNat ≤ 7 then tsel.toNat else 4
    let B := 8 * 2 ^ (t / 2)
    encode (.lookup tsel v) = BitVec.ofNat 16 (16 + 32 * tsel.toNat + 512 * v.toNat) ∧
    exec (.lookup tsel v) s = .next { s with response := some (.rd (BitVec.ofNat 3 t) (BitVec.ofNat 7 B) (t % 2 == 0)
      (if t % 2 = 0 then -(2 : Int) ^ (B - 1) else 0)
      (if t % 2 = 0 then (2 : Int) ^ (B - 1) - 1 else (2 : Int) ^ B - 1)) }

/-- R63: CHKOVF answers the overflow record for every `A`: unchanged in range; saturated for a signed type out of range; wrapped for
an unsigned one; the wrapped value and the original in every case. That `WRAPPED` is filled in range is the rule's own decision
D15 (log 8). -/
def Obligations.ChkovfResponds : Prop :=
  ∀ (tsel : TypeSelector) (v : Bool) (s : State),
    let d := descriptor tsel
    let w := (s.a - d.min) % (2 : Int) ^ d.bits + d.min
    encode (.chkovf tsel v) = BitVec.ofNat 16 (12 + 32 * tsel.toNat + 512 * v.toNat) ∧
    (d.min ≤ s.a → s.a ≤ d.max →
      exec (.chkovf tsel v) s = .next { s with response := some (.ro false s.a w s.a) }) ∧
    (d.signed = true → s.a < d.min →
      exec (.chkovf tsel v) s = .next { s with response := some (.ro true d.min w s.a) }) ∧
    (d.signed = true → d.max < s.a →
      exec (.chkovf tsel v) s = .next { s with response := some (.ro true d.max w s.a) }) ∧
    (d.signed = false → s.a < d.min ∨ d.max < s.a →
      exec (.chkovf tsel v) s = .next { s with response := some (.ro true w w s.a) })

/-- R64: CLAMP answers `MIN` below, `MAX` above and `A` in between, for signed and unsigned types alike. -/
def Obligations.ClampResponds : Prop :=
  ∀ (tsel : TypeSelector) (v : Bool) (s : State),
    let d := descriptor tsel
    encode (.clamp tsel v) = BitVec.ofNat 16 (13 + 32 * tsel.toNat + 512 * v.toNat) ∧
    (s.a < d.min → exec (.clamp tsel v) s = .next { s with response := some (.rv d.min) }) ∧
    (d.max < s.a → exec (.clamp tsel v) s = .next { s with response := some (.rv d.max) }) ∧
    (d.min ≤ s.a → s.a ≤ d.max → exec (.clamp tsel v) s = .next { s with response := some (.rv s.a) })

/-- R65: WRAP answers `((A - MIN) emod 2^B) + MIN`, the unique member of `[MIN, MAX]` congruent to `A` modulo `2^B`. -/
def Obligations.WrapResponds : Prop :=
  ∀ (tsel : TypeSelector) (v : Bool) (s : State),
    let d := descriptor tsel
    encode (.wrap tsel v) = BitVec.ofNat 16 (14 + 32 * tsel.toNat + 512 * v.toNat) ∧
    exec (.wrap tsel v) s =
      .next { s with response := some (.rv ((s.a - d.min) % (2 : Int) ^ d.bits + d.min)) } ∧
    (∀ y : Int, exec (.wrap tsel v) s = .next { s with response := some (.rv y) } ↔
      d.min ≤ y ∧ y ≤ d.max ∧ ∃ q : Int, s.a = y + q * (2 : Int) ^ d.bits)

/-- CVT answers the low `B` bits of the port read as the type. For `A >= 0` this is R66's quotation of D0; for `A < 0` it is the
spec's own decision D16, from general knowledge (93 G1; log 7). -/
def Obligations.CvtResponds : Prop :=
  ∀ (tsel : TypeSelector) (v : Bool) (s : State),
    let d := descriptor tsel
    encode (.cvt tsel v) = BitVec.ofNat 16 (15 + 32 * tsel.toNat + 512 * v.toNat) ∧
    exec (.cvt tsel v) s = .next { s with response := some (.rv (readAs d.signed d.bits (patternOf d.bits s.a))) }

/-- R67, the relations between the five operations, which the spec marks as derived: CHKOVF's `wrapped` is WRAP's result, its
`value` is CLAMP's for a signed type and WRAP's for an unsigned one, its `ovf` says that they differ from `A`, CVT equals WRAP,
and CLAMP, WRAP and CVT are idempotent and the identity in range. -/
def Obligations.RegistryLaws : Prop :=
  ∀ (tsel : TypeSelector) (v : Bool) (s : State),
    let d := descriptor tsel
    ∃ (ovf : Bool) (c w : Int),
      exec (.clamp tsel v) s = .next { s with response := some (.rv c) } ∧
      exec (.wrap tsel v) s = .next { s with response := some (.rv w) } ∧
      exec (.cvt tsel v) s = .next { s with response := some (.rv w) } ∧
      exec (.chkovf tsel v) s = .next { s with response := some (.ro ovf (if d.signed then c else w) w s.a) } ∧
      (ovf = true ↔ c ≠ s.a) ∧ (ovf = true ↔ w ≠ s.a) ∧ (ovf = true ↔ s.a < d.min ∨ d.max < s.a) ∧
      d.min ≤ c ∧ c ≤ d.max ∧ d.min ≤ w ∧ w ≤ d.max ∧
      (d.min ≤ s.a → s.a ≤ d.max → c = s.a ∧ w = s.a) ∧
      exec (.clamp tsel v) { s with a := c } = .next { s with a := c, response := some (.rv c) } ∧
      exec (.wrap tsel v) { s with a := w } = .next { s with a := w, response := some (.rv w) } ∧
      exec (.cvt tsel v) { s with a := w } = .next { s with a := w, response := some (.rv w) }

end Registry

section Logic

/-- R72: AND of the two patterns, never sign-extended; refused outside `C(B)`. -/
def Obligations.AndResponds : Prop :=
  ∀ (tsel : TypeSelector) (v : Bool) (s : State),
    let B := (descriptor tsel).bits
    encode (.and tsel v) = BitVec.ofNat 16 (0 + 32 * tsel.toNat + 512 * v.toNat) ∧
    (InCoercionDomain B s.a → InCoercionDomain B s.b →
      exec (.and tsel v) s = .next { s with response := some (.rv (patternOf B s.a &&& patternOf B s.b : Nat)) } ∧
      patternOf B s.a &&& patternOf B s.b ≤ 2 ^ B - 1) ∧
    (¬(InCoercionDomain B s.a ∧ InCoercionDomain B s.b) → exec (.and tsel v) s = .refused .operandOutOfDomain)

/-- R73: OR of the two patterns, never sign-extended; refused outside `C(B)`. -/
def Obligations.OrResponds : Prop :=
  ∀ (tsel : TypeSelector) (v : Bool) (s : State),
    let B := (descriptor tsel).bits
    encode (.or tsel v) = BitVec.ofNat 16 (1 + 32 * tsel.toNat + 512 * v.toNat) ∧
    (InCoercionDomain B s.a → InCoercionDomain B s.b →
      exec (.or tsel v) s = .next { s with response := some (.rv (patternOf B s.a ||| patternOf B s.b : Nat)) } ∧
      patternOf B s.a ||| patternOf B s.b ≤ 2 ^ B - 1) ∧
    (¬(InCoercionDomain B s.a ∧ InCoercionDomain B s.b) → exec (.or tsel v) s = .refused .operandOutOfDomain)

/-- R74: exclusive OR of the two patterns, never sign-extended; refused outside `C(B)`. -/
def Obligations.XorResponds : Prop :=
  ∀ (tsel : TypeSelector) (v : Bool) (s : State),
    let B := (descriptor tsel).bits
    encode (.xor tsel v) = BitVec.ofNat 16 (2 + 32 * tsel.toNat + 512 * v.toNat) ∧
    (InCoercionDomain B s.a → InCoercionDomain B s.b →
      exec (.xor tsel v) s = .next { s with response := some (.rv (patternOf B s.a ^^^ patternOf B s.b : Nat)) } ∧
      patternOf B s.a ^^^ patternOf B s.b ≤ 2 ^ B - 1) ∧
    (¬(InCoercionDomain B s.a ∧ InCoercionDomain B s.b) → exec (.xor tsel v) s = .refused .operandOutOfDomain)

/-- R75: NOT of the pattern, read as signed if the type is; refused outside `C(B)`. -/
def Obligations.NotResponds : Prop :=
  ∀ (tsel : TypeSelector) (v : Bool) (s : State),
    let d := descriptor tsel
    encode (.not tsel v) = BitVec.ofNat 16 (3 + 32 * tsel.toNat + 512 * v.toNat) ∧
    (InCoercionDomain d.bits s.a →
      exec (.not tsel v) s =
        .next { s with response := some (.rv (readAs d.signed d.bits (2 ^ d.bits - 1 - patternOf d.bits s.a))) }) ∧
    (¬InCoercionDomain d.bits s.a → exec (.not tsel v) s = .refused .operandOutOfDomain)

/-- R76, laws the spec marks as derived: AND plus OR is the sum of the patterns, XOR is OR minus AND, XOR with all ones is the
unsigned NOT, De Morgan on patterns, the gates depend on an operand only modulo `2^B`, and NOT of a value in a signed type's range
is `-a - 1` (R75). -/
def Obligations.LogicLaws : Prop :=
  ∀ (tsel : TypeSelector) (v : Bool) (s : State),
    let B := (descriptor tsel).bits
    let pa := patternOf B s.a
    let pb := patternOf B s.b
    let MASK := 2 ^ B - 1
    InCoercionDomain B s.a → InCoercionDomain B s.b →
    ∃ p o x : Nat,
      exec (.and tsel v) s = .next { s with response := some (.rv p) } ∧
      exec (.or tsel v) s = .next { s with response := some (.rv o) } ∧
      exec (.xor tsel v) s = .next { s with response := some (.rv x) } ∧
      p ≤ MASK ∧ o ≤ MASK ∧ x ≤ MASK ∧
      p + o = pa + pb ∧ x = o - p ∧ MASK - p = (MASK - pa) ||| (MASK - pb) ∧
      exec (.xor tsel v) { s with b := (MASK : Nat) } =
        .next { s with b := (MASK : Nat), response := some (.rv ((MASK - pa : Nat) : Int)) } ∧
      (∀ a' : Int, InCoercionDomain B a' → a' % (2 : Int) ^ B = s.a % (2 : Int) ^ B →
        exec (.and tsel v) { s with a := a' } = .next { s with a := a', response := some (.rv p) } ∧
        exec (.or tsel v) { s with a := a' } = .next { s with a := a', response := some (.rv o) } ∧
        exec (.xor tsel v) { s with a := a' } = .next { s with a := a', response := some (.rv x) }) ∧
      ((descriptor tsel).signed = true → (descriptor tsel).min ≤ s.a → s.a ≤ (descriptor tsel).max →
        exec (.not tsel v) s = .next { s with response := some (.rv (-s.a - 1)) })

/-- R70, R72 to R75 against the library's bit vectors: on `C(B)` the gates are the bitwise operations on the low `B` bits of the
ports. -/
def Obligations.LogicAgreesWithBitVec : Prop :=
  ∀ (tsel : TypeSelector) (v : Bool) (s : State),
    let d := descriptor tsel
    let x := BitVec.ofInt d.bits s.a
    let y := BitVec.ofInt d.bits s.b
    InCoercionDomain d.bits s.a → InCoercionDomain d.bits s.b →
      exec (.and tsel v) s = .next { s with response := some (.rv (x &&& y).toNat) } ∧
      exec (.or tsel v) s = .next { s with response := some (.rv (x ||| y).toNat) } ∧
      exec (.xor tsel v) s = .next { s with response := some (.rv (x ^^^ y).toNat) } ∧
      exec (.not tsel v) s =
        .next { s with response := some (.rv (if d.signed then (~~~x).toInt else ((~~~x).toNat : Int))) }

end Logic

section Shift

/-- R78: a negative count is refused by all five shifts and rotates; a count that is not negative is reduced modulo the width,
so that `n` and `n + B` give the same reply. -/
def Obligations.CountsReduceModuloWidth : Prop :=
  ∀ (tsel : TypeSelector) (v : Bool) (s : State) (i : Instr),
    i = .shl tsel v ∨ i = .shr tsel v ∨ i = .ushr tsel v ∨ i = .rol tsel v ∨ i = .ror tsel v →
      (InCoercionDomain (descriptor tsel).bits s.a → s.b < 0 → exec i s = .refused .negativeCount) ∧
      (0 ≤ s.b → reply (exec i { s with b := s.b + (descriptor tsel).bits }) = reply (exec i s)) ∧
      (0 ≤ s.b → reply (exec i { s with b := s.b % ((descriptor tsel).bits : Int) }) = reply (exec i s))

/-- R79: SHL shifts the pattern left by the reduced count, masks, and reads the result as the type. -/
def Obligations.ShlResponds : Prop :=
  ∀ (tsel : TypeSelector) (v : Bool) (s : State),
    let d := descriptor tsel
    let k := (s.b % (d.bits : Int)).toNat
    encode (.shl tsel v) = BitVec.ofNat 16 (4 + 32 * tsel.toNat + 512 * v.toNat) ∧
    (InCoercionDomain d.bits s.a → 0 ≤ s.b →
      exec (.shl tsel v) s =
        .next { s with response := some (.rv (readAs d.signed d.bits (patternOf d.bits s.a * 2 ^ k % 2 ^ d.bits))) }) ∧
    (¬InCoercionDomain d.bits s.a → exec (.shl tsel v) s = .refused .operandOutOfDomain) ∧
    (InCoercionDomain d.bits s.a → s.b < 0 → exec (.shl tsel v) s = .refused .negativeCount)

/-- R80: SHR. Arithmetic when the type is signed and the operand VALUE is negative: the pattern shifted right with `k` ones put in
at the top, sign-extended. Logical otherwise, then read as the type. -/
def Obligations.ShrResponds : Prop :=
  ∀ (tsel : TypeSelector) (v : Bool) (s : State),
    let d := descriptor tsel
    let k := (s.b % (d.bits : Int)).toNat
    let ua := patternOf d.bits s.a
    encode (.shr tsel v) = BitVec.ofNat 16 (5 + 32 * tsel.toNat + 512 * v.toNat) ∧
    (InCoercionDomain d.bits s.a → 0 ≤ s.b → d.signed = true → s.a < 0 →
      exec (.shr tsel v) s =
        .next { s with response := some (.rv (readAs true d.bits ((ua / 2 ^ k ||| (2 ^ k - 1) * 2 ^ (d.bits - k)) % 2 ^ d.bits))) }) ∧
    (InCoercionDomain d.bits s.a → 0 ≤ s.b → d.signed = false ∨ 0 ≤ s.a →
      exec (.shr tsel v) s = .next { s with response := some (.rv (readAs d.signed d.bits (ua / 2 ^ k % 2 ^ d.bits))) }) ∧
    (¬InCoercionDomain d.bits s.a → exec (.shr tsel v) s = .refused .operandOutOfDomain) ∧
    (InCoercionDomain d.bits s.a → s.b < 0 → exec (.shr tsel v) s = .refused .negativeCount)

/-- R81: USHR shifts the pattern right with zero fill; the result is at most `2^(B-k) - 1` and never negative. -/
def Obligations.UshrResponds : Prop :=
  ∀ (tsel : TypeSelector) (v : Bool) (s : State),
    let B := (descriptor tsel).bits
    let k := (s.b % (B : Int)).toNat
    encode (.ushr tsel v) = BitVec.ofNat 16 (6 + 32 * tsel.toNat + 512 * v.toNat) ∧
    (InCoercionDomain B s.a → 0 ≤ s.b →
      exec (.ushr tsel v) s = .next { s with response := some (.rv (patternOf B s.a / 2 ^ k : Nat)) } ∧
      patternOf B s.a / 2 ^ k ≤ 2 ^ (B - k) - 1) ∧
    (¬InCoercionDomain B s.a → exec (.ushr tsel v) s = .refused .operandOutOfDomain) ∧
    (InCoercionDomain B s.a → s.b < 0 → exec (.ushr tsel v) s = .refused .negativeCount)

/-- R79, R80, R82, laws the spec marks as derived: SHL is the wrap of `a * 2^k`; SHR is `floor(a / 2^k)` for a signed type and a
value in its range, and for a value below its range when `k >= 1`; SHR of an unsigned type is USHR. -/
def Obligations.ShiftLaws : Prop :=
  ∀ (tsel : TypeSelector) (v : Bool) (s : State),
    let d := descriptor tsel
    let k := (s.b % (d.bits : Int)).toNat
    InCoercionDomain d.bits s.a → 0 ≤ s.b →
      exec (.shl tsel v) s = .next { s with response := some (.rv (wrapInto (s.a * (2 : Int) ^ k) d.min d.max)) } ∧
      (d.signed = true → d.min ≤ s.a → s.a ≤ d.max →
        exec (.shr tsel v) s = .next { s with response := some (.rv (s.a / (2 : Int) ^ k)) }) ∧
      (d.signed = true → s.a < d.min → 1 ≤ k →
        exec (.shr tsel v) s = .next { s with response := some (.rv (s.a / (2 : Int) ^ k)) }) ∧
      (d.signed = false → exec (.shr tsel v) s = exec (.ushr tsel v) s)

/-- R79 to R81 against the library's bit vectors: SHL and USHR are the shifts of the low `B` bits of the port; SHR is the arithmetic
shift for a signed type and a value in its range, and the logical shift for an unsigned type. -/
def Obligations.ShiftAgreesWithBitVec : Prop :=
  ∀ (tsel : TypeSelector) (v : Bool) (s : State),
    let d := descriptor tsel
    let k := (s.b % (d.bits : Int)).toNat
    let x := BitVec.ofInt d.bits s.a
    InCoercionDomain d.bits s.a → 0 ≤ s.b →
      exec (.shl tsel v) s =
        .next { s with response := some (.rv (if d.signed then (x <<< k).toInt else ((x <<< k).toNat : Int))) } ∧
      exec (.ushr tsel v) s = .next { s with response := some (.rv (x >>> k).toNat) } ∧
      (d.signed = true → d.min ≤ s.a → s.a ≤ d.max →
        exec (.shr tsel v) s = .next { s with response := some (.rv (x.sshiftRight k).toInt) }) ∧
      (d.signed = false → exec (.shr tsel v) s = .next { s with response := some (.rv (x >>> k).toNat) })

end Shift

section Rotate

/-- R85: ROL: the pattern split in two by the reduced count, the parts exchanged; never sign-extended. -/
def Obligations.RolResponds : Prop :=
  ∀ (tsel : TypeSelector) (v : Bool) (s : State),
    let B := (descriptor tsel).bits
    let k := (s.b % (B : Int)).toNat
    let ua := patternOf B s.a
    encode (.rol tsel v) = BitVec.ofNat 16 (7 + 32 * tsel.toNat + 512 * v.toNat) ∧
    (InCoercionDomain B s.a → 0 ≤ s.b →
      exec (.rol tsel v) s = .next { s with response := some (.rv (ua * 2 ^ k % 2 ^ B + ua / 2 ^ (B - k) : Nat)) } ∧
      ua * 2 ^ k % 2 ^ B + ua / 2 ^ (B - k) ≤ 2 ^ B - 1) ∧
    (¬InCoercionDomain B s.a → exec (.rol tsel v) s = .refused .operandOutOfDomain) ∧
    (InCoercionDomain B s.a → s.b < 0 → exec (.rol tsel v) s = .refused .negativeCount)

/-- R86: ROR: the pattern split in two by the reduced count, the parts exchanged; never sign-extended. -/
def Obligations.RorResponds : Prop :=
  ∀ (tsel : TypeSelector) (v : Bool) (s : State),
    let B := (descriptor tsel).bits
    let k := (s.b % (B : Int)).toNat
    let ua := patternOf B s.a
    encode (.ror tsel v) = BitVec.ofNat 16 (8 + 32 * tsel.toNat + 512 * v.toNat) ∧
    (InCoercionDomain B s.a → 0 ≤ s.b →
      exec (.ror tsel v) s = .next { s with response := some (.rv (ua / 2 ^ k + ua * 2 ^ (B - k) % 2 ^ B : Nat)) } ∧
      ua / 2 ^ k + ua * 2 ^ (B - k) % 2 ^ B ≤ 2 ^ B - 1) ∧
    (¬InCoercionDomain B s.a → exec (.ror tsel v) s = .refused .operandOutOfDomain) ∧
    (InCoercionDomain B s.a → s.b < 0 → exec (.ror tsel v) s = .refused .negativeCount)

/-- R85, R86, marked derived: bit `(i + k) emod B` of ROL's result, and bit `(i - k) emod B` of ROR's, is bit `i` of the pattern. -/
def Obligations.RotatesMoveBits : Prop :=
  ∀ (tsel : TypeSelector) (v : Bool) (s : State),
    let B := (descriptor tsel).bits
    let k := (s.b % (B : Int)).toNat
    InCoercionDomain B s.a → 0 ≤ s.b →
    ∃ l r : Nat,
      exec (.rol tsel v) s = .next { s with response := some (.rv l) } ∧
      exec (.ror tsel v) s = .next { s with response := some (.rv r) } ∧
      ∀ i, i < B →
        l.testBit ((i + k) % B) = (patternOf B s.a).testBit i ∧
        r.testBit ((i + B - k) % B) = (patternOf B s.a).testBit i

/-- R87, laws the spec marks as derived: ROR undoes ROL and ROL undoes ROR, up to the pattern (90 C2: for a negative `x` the
composition returns `x + 2^B`); ROL by `k` is ROR by `B - k`; rotating keeps the population count. -/
def Obligations.RotateLaws : Prop :=
  ∀ (tsel : TypeSelector) (v : Bool) (s : State),
    let B := (descriptor tsel).bits
    let k := (s.b % (B : Int)).toNat
    InCoercionDomain B s.a → 0 ≤ s.b →
    ∃ l r : Nat,
      exec (.rol tsel v) s = .next { s with response := some (.rv l) } ∧
      exec (.ror tsel v) s = .next { s with response := some (.rv r) } ∧
      exec (.ror tsel v) { s with a := l } = .next { s with a := l, response := some (.rv (patternOf B s.a)) } ∧
      exec (.rol tsel v) { s with a := r } = .next { s with a := r, response := some (.rv (patternOf B s.a)) } ∧
      (0 < k → reply (exec (.ror tsel v) { s with b := (B - k : Nat) }) = .response (some (.rv l))) ∧
      (k = 0 → (l : Int) = patternOf B s.a ∧ (r : Int) = patternOf B s.a) ∧
      reply (exec (.popcnt tsel v) { s with a := l }) = reply (exec (.popcnt tsel v) s) ∧
      reply (exec (.popcnt tsel v) { s with a := r }) = reply (exec (.popcnt tsel v) s)

/-- R85, R86 against the library's bit vectors: the rotates are the rotations of the low `B` bits of the port by the whole count. -/
def Obligations.RotateAgreesWithBitVec : Prop :=
  ∀ (tsel : TypeSelector) (v : Bool) (s : State),
    let B := (descriptor tsel).bits
    let x := BitVec.ofInt B s.a
    InCoercionDomain B s.a → 0 ≤ s.b →
      exec (.rol tsel v) s = .next { s with response := some (.rv (x.rotateLeft s.b.toNat).toNat) } ∧
      exec (.ror tsel v) s = .next { s with response := some (.rv (x.rotateRight s.b.toNat).toNat) }

end Rotate

section Bits

/-- R91: POPCNT counts the set bits of the pattern among exactly `B` positions. -/
def Obligations.PopcntResponds : Prop :=
  ∀ (tsel : TypeSelector) (v : Bool) (s : State),
    let B := (descriptor tsel).bits
    encode (.popcnt tsel v) = BitVec.ofNat 16 (9 + 32 * tsel.toNat + 512 * v.toNat) ∧
    (InCoercionDomain B s.a →
      exec (.popcnt tsel v) s =
        .next { s with response := some (.rv (((List.range B).filter fun i => (patternOf B s.a).testBit i).length : Nat)) } ∧
      ((List.range B).filter fun i => (patternOf B s.a).testBit i).length ≤ B) ∧
    (¬InCoercionDomain B s.a → exec (.popcnt tsel v) s = .refused .operandOutOfDomain)

/-- R92: GETBIT reads one bit of the pattern; the index is not reduced; a negative one is refused. -/
def Obligations.GetbitResponds : Prop :=
  ∀ (tsel : TypeSelector) (v : Bool) (s : State),
    let B := (descriptor tsel).bits
    encode (.getbit tsel v) = BitVec.ofNat 16 (10 + 32 * tsel.toNat + 512 * v.toNat) ∧
    (InCoercionDomain B s.a → 0 ≤ s.b →
      exec (.getbit tsel v) s =
        .next { s with response := some (.rv (((patternOf B s.a).testBit s.b.toNat).toNat : Nat)) }) ∧
    (¬InCoercionDomain B s.a → exec (.getbit tsel v) s = .refused .operandOutOfDomain) ∧
    (InCoercionDomain B s.a → s.b < 0 → exec (.getbit tsel v) s = .refused .negativeCount)

/-- R93: SETBIT writes the bit `v` at the index and reads the result as the type; an index at or above the width writes
nothing; a negative one is refused. The result is given by its bits. -/
def Obligations.SetbitResponds : Prop :=
  ∀ (tsel : TypeSelector) (v : Bool) (s : State),
    let d := descriptor tsel
    let ua := patternOf d.bits s.a
    encode (.setbit tsel v) = BitVec.ofNat 16 (11 + 32 * tsel.toNat + 512 * v.toNat) ∧
    (InCoercionDomain d.bits s.a → 0 ≤ s.b → s.b ≤ (d.bits : Int) - 1 →
      ∃ x : Nat, x < 2 ^ d.bits ∧
        (∀ j, x.testBit j = if (j : Int) = s.b then v else ua.testBit j) ∧
        exec (.setbit tsel v) s = .next { s with response := some (.rv (readAs d.signed d.bits x)) }) ∧
    (InCoercionDomain d.bits s.a → (d.bits : Int) ≤ s.b →
      exec (.setbit tsel v) s = .next { s with response := some (.rv (readAs d.signed d.bits ua)) }) ∧
    (¬InCoercionDomain d.bits s.a → exec (.setbit tsel v) s = .refused .operandOutOfDomain) ∧
    (InCoercionDomain d.bits s.a → s.b < 0 → exec (.setbit tsel v) s = .refused .negativeCount)

/-- R92, R94, laws the spec marks as derived: a bit written is read back, and any other bit reads as before; a bit at or above the
width reads 0; SETBIT's result may be fed back; the population counts of a value and of its complement add up to the width. -/
def Obligations.BitLaws : Prop :=
  ∀ (tsel : TypeSelector) (v w : Bool) (s : State) (j : Nat),
    let B := (descriptor tsel).bits
    InCoercionDomain B s.a → 0 ≤ s.b →
    ∃ (y n : Int) (p q g : Nat),
      exec (.setbit tsel v) s = .next { s with response := some (.rv y) } ∧ InCoercionDomain B y ∧
      (s.b ≤ (B : Int) - 1 →
        exec (.getbit tsel w) { s with a := y } = .next { s with a := y, response := some (.rv (v.toNat : Nat)) }) ∧
      exec (.getbit tsel w) { s with b := j } = .next { s with b := j, response := some (.rv g) } ∧ (B ≤ j → g = 0) ∧
      ((j : Int) ≠ s.b →
        exec (.getbit tsel w) { s with a := y, b := j } = .next { s with a := y, b := j, response := some (.rv g) }) ∧
      exec (.not tsel w) s = .next { s with response := some (.rv n) } ∧ InCoercionDomain B n ∧
      exec (.popcnt tsel w) s = .next { s with response := some (.rv p) } ∧
      exec (.popcnt tsel w) { s with a := n } = .next { s with a := n, response := some (.rv q) } ∧
      p + q = B

end Bits

section Host

/-- R57: where the mapping from D0's calls writes `*`, either signedness gives the same reply. -/
def Obligations.SignednessIgnoredWhereStarred : Prop :=
  ∀ (w : Width) (v : Bool) (s : State),
    exec (.and (selectorOf w true) v) s = exec (.and (selectorOf w false) v) s ∧
    exec (.or (selectorOf w true) v) s = exec (.or (selectorOf w false) v) s ∧
    exec (.xor (selectorOf w true) v) s = exec (.xor (selectorOf w false) v) s ∧
    exec (.ushr (selectorOf w true) v) s = exec (.ushr (selectorOf w false) v) s ∧
    exec (.rol (selectorOf w true) v) s = exec (.rol (selectorOf w false) v) s ∧
    exec (.ror (selectorOf w true) v) s = exec (.ror (selectorOf w false) v) s ∧
    exec (.popcnt (selectorOf w true) v) s = exec (.popcnt (selectorOf w false) v) s ∧
    exec (.getbit (selectorOf w true) v) s = exec (.getbit (selectorOf w false) v) s

/-- R57, R49, row by row: the command of every D0 call is the encoding of the row's operation with the type `T(bits, signed)`, or with
the named type, and the ports carry the call's operands, 0 where unused. `T(bits, signed)` is any selector up to 7 whose
descriptor has that width and signedness. DESIGN CHOICE (log 18): the unsigned type where R57 writes `*`, and selector 8 for an
unknown name. Every one of these words decodes to a command in canonical form. -/
def Obligations.CallsBecomeCommands : Prop :=
  (∀ (w : Width) (signed : Bool), ∃ t : TypeSelector,
    t.toNat ≤ 7 ∧ (descriptor t).bits = w.bits ∧ (descriptor t).signed = signed) ∧
  (∀ name : TypeName, ∃ t : TypeSelector, t.toNat ≤ 7 ∧ (descriptor t).name = name) ∧
  (∀ (w : Width) (signed : Bool) (t : TypeSelector) (a b : Int) (v : Bool),
    t.toNat ≤ 7 → (descriptor t).bits = w.bits → (descriptor t).signed = signed →
      (Call.not a w signed).command = ⟨encode (.not t false), a, 0⟩ ∧
      (Call.leftShift a b w signed).command = ⟨encode (.shl t false), a, b⟩ ∧
      (Call.rightShift a b w signed).command = ⟨encode (.shr t false), a, b⟩ ∧
      (Call.setBit a b v w signed).command = ⟨encode (.setbit t v), a, b⟩ ∧
      (signed = false →
        (Call.and a b w).command = ⟨encode (.and t false), a, b⟩ ∧
        (Call.or a b w).command = ⟨encode (.or t false), a, b⟩ ∧
        (Call.xor a b w).command = ⟨encode (.xor t false), a, b⟩ ∧
        (Call.unsignedRightShift a b w).command = ⟨encode (.ushr t false), a, b⟩ ∧
        (Call.rotateLeft a b w).command = ⟨encode (.rol t false), a, b⟩ ∧
        (Call.rotateRight a b w).command = ⟨encode (.ror t false), a, b⟩ ∧
        (Call.popCount a w).command = ⟨encode (.popcnt t false), a, 0⟩ ∧
        (Call.getBit a b w).command = ⟨encode (.getbit t false), a, b⟩)) ∧
  (∀ (name : Option TypeName) (t : TypeSelector) (a : Int),
    (∃ n, name = some n ∧ t.toNat ≤ 7 ∧ (descriptor t).name = n) ∨ (name = none ∧ t = 8) →
      (Call.checkOverflow a name).command = ⟨encode (.chkovf t false), a, 0⟩ ∧
      (Call.clamp a name).command = ⟨encode (.clamp t false), a, 0⟩ ∧
      (Call.wrap a name).command = ⟨encode (.wrap t false), a, 0⟩ ∧
      (Call.convertToType a name).command = ⟨encode (.cvt t false), a, 0⟩ ∧
      (Call.lookup name).command = ⟨encode (.lookup t false), 0, 0⟩) ∧
  (∀ c : Call, ∃ i : Instr, decode c.command.cw = .command i ∧ i.canonical = true)

/-- R56, R51: a line of a mnemonic in the operand form of that mnemonic is assembled to a command whose word decodes to the
mnemonic's operation with the line's type and bit value; the ports carry the operands in order, and 0 where the form has none. -/
def Obligations.AssemblerEmitsTheLine : Prop :=
  ∀ (m : String) (op : Nat) (form : AsmForm) (tsel : TypeSelector) (a b : Int), (m, op, form) ∈ mnemonicTable →
    ∃ i, instrOfCode op tsel false = some i ∧
      (form = .twoOperands →
        ∃ c, (AsmLine.mk op form tsel [a, b]).assemble = some c ∧ decode c.cw = .command i ∧ c.a = a ∧ c.b = b) ∧
      (form = .oneOperand →
        ∃ c, (AsmLine.mk op form tsel [a]).assemble = some c ∧ decode c.cw = .command i ∧ c.a = a ∧ c.b = 0) ∧
      (form = .noOperands →
        ∃ c, (AsmLine.mk op form tsel []).assemble = some c ∧ decode c.cw = .command i ∧ c.a = 0 ∧ c.b = 0) ∧
      (form = .setbitOperands → ∀ v : Bool,
        ∃ c, (AsmLine.mk op form tsel [a, b, (v.toNat : Int)]).assemble = some c ∧
          decode c.cw = .command (.setbit tsel v) ∧ c.a = a ∧ c.b = b)

/-- R56, R48: the mnemonics with their operation codes, each under the operand form R56 writes for it and no other; the type names
with their selectors. No name stands twice. -/
def Obligations.NamesOfTheNotation : Prop :=
  (∀ (m : String) (op : Nat) (form : AsmForm), (m, op, form) ∈ mnemonicTable ↔
    (form = .twoOperands ∧ (m, op) ∈ [("AND", 0), ("OR", 1), ("XOR", 2), ("SHL", 4), ("SHR", 5), ("USHR", 6), ("ROL", 7),
      ("ROR", 8), ("GETBIT", 10)]) ∨
    (form = .oneOperand ∧ (m, op) ∈ [("NOT", 3), ("POPCNT", 9), ("CHKOVF", 12), ("CLAMP", 13), ("WRAP", 14), ("CVT", 15)]) ∨
    (form = .setbitOperands ∧ m = "SETBIT" ∧ op = 11) ∨
    (form = .noOperands ∧ m = "LOOKUP" ∧ op = 16)) ∧
  (typeTable.map fun t => (t.1, t.2.toNat)) =
    ["INT8", "UINT8", "INT16", "UINT16", "INT32", "UINT32", "INT64", "UINT64",
      "T8", "T9", "T10", "T11", "T12", "T13", "T14", "T15"].zip (List.range 16) ∧
  (mnemonicTable.map fun m => m.1).Nodup ∧ (typeTable.map fun t => t.1).Nodup

/-- R56: integer literals: decimal with an optional leading `-`, `0x` hexadecimal and `0b` binary. The hexadecimal digits are read in
upper case, as the spec's own lines write them, and in lower case, which is the model's DESIGN CHOICE of log 17. -/
def Obligations.LiteralsAreRead : Prop :=
  ∀ n : Nat,
    literalValue (Nat.toDigits 10 n) = some (n : Int) ∧
    literalValue ('-' :: Nat.toDigits 10 n) = some (-(n : Int)) ∧
    literalValue ('0' :: 'x' :: (Nat.toDigits 16 n).map Char.toUpper) = some (n : Int) ∧
    literalValue ('0' :: 'x' :: Nat.toDigits 16 n) = some (n : Int) ∧
    literalValue ('0' :: 'b' :: Nat.toDigits 2 n) = some (n : Int)

/-- R56: a line of text, with a comment or without, is assembled to what R56 says of its mnemonic, type and operands; operands are
any literal texts. The spaces are those R56 writes; that they are the only white space asked for is log 17. -/
def Obligations.AssemblerReadsText : Prop :=
  ∀ (m : String) (op : Nat) (form : AsmForm) (ty : String) (tsel : TypeSelector) (x y : String) (a b : Int) (comment : String),
    (m, op, form) ∈ mnemonicTable → (ty, tsel) ∈ typeTable →
    literalValue x.toList = some a → literalValue y.toList = some b →
    ∀ tail, tail = "" ∨ tail = " --" ++ comment →
      (form = .twoOperands →
        assembleText (m ++ "." ++ ty ++ " " ++ x ++ ", " ++ y ++ tail) = some ⟨controlWordOf op tsel false, a, b⟩) ∧
      (form = .oneOperand →
        assembleText (m ++ "." ++ ty ++ " " ++ x ++ tail) = some ⟨controlWordOf op tsel false, a, 0⟩) ∧
      (form = .noOperands →
        assembleText (m ++ "." ++ ty ++ tail) = some ⟨controlWordOf op tsel false, 0, 0⟩) ∧
      (form = .setbitOperands →
        assembleText (m ++ "." ++ ty ++ " " ++ x ++ ", " ++ y ++ ", 0" ++ tail) = some ⟨controlWordOf op tsel false, a, b⟩ ∧
        assembleText (m ++ "." ++ ty ++ " " ++ x ++ ", " ++ y ++ ", 1" ++ tail) = some ⟨controlWordOf op tsel true, a, b⟩)

end Host
end

