-- ==== Sys2Proof/Laws/Decode.lean ====
section
/-! SUPPORT. The control word's fields as numbers, and all that the decoder can answer (30_encoding.md R44, R54). -/

namespace Sys2Proof.Laws

open Sys2Proof.Machine Sys2Proof.Safety

theorem opField_toNat (w : ControlWord) : (opField w).toNat = w.toNat % 32 := by
  simp [opField, BitVec.extractLsb'_toNat]

theorem tselField_toNat (w : ControlWord) : (tselField w).toNat = w.toNat / 32 % 16 := by
  simp [tselField, BitVec.extractLsb'_toNat, Nat.shiftRight_eq_div_pow]

theorem vField_eq (w : ControlWord) : vField w = decide (w.toNat / 512 % 2 = 1) := by
  simp [vField, BitVec.getLsbD, Nat.testBit_eq_decide_div_mod_eq]

theorem rsvField_eq_zero_iff (w : ControlWord) : rsvField w = 0 ↔ w.toNat / 1024 = 0 := by
  have := w.isLt
  rw [BitVec.toNat_eq]
  simp only [rsvField, BitVec.extractLsb'_toNat, Nat.shiftRight_eq_div_pow]
  simp; omega

/-- A code above 16 names no operation (R48, R52). -/
theorem instrOfCode_eq_none_iff (op : Nat) (t : TypeSelector) (v : Bool) : instrOfCode op t v = none ↔ 17 ≤ op := by
  by_cases h : op < 17
  · interval_cases op <;> simp [instrOfCode]
  · refine ⟨fun _ => by omega, fun _ => ?_⟩
    unfold instrOfCode
    split <;> first | rfl | omega

/-- An operation read from a code has that code, that selector and that bit. -/
theorem instrOfCode_eq_some {op : Nat} {t : TypeSelector} {v : Bool} {i : Instr} (h : instrOfCode op t v = some i) :
    i.opcode = op ∧ i.tsel = t ∧ i.bitValue = v := by
  unfold instrOfCode at h
  split at h <;> cases h <;> simp [Instr.opcode, Instr.tsel, Instr.bitValue]

theorem instrOfCode_of_fields (i : Instr) : instrOfCode i.opcode i.tsel i.bitValue = some i := by
  cases i <;> rfl

/-- What the decoder answers on a well-formed word: the command with the word's fields. -/
theorem decode_command_iff (w : ControlWord) (i : Instr) :
    decode w = .command i ↔ w.toNat / 1024 = 0 ∧ instrOfCode (w.toNat % 32) (tselField w) (vField w) = some i := by
  rw [← rsvField_eq_zero_iff, ← opField_toNat, decode]
  split <;> rename_i h
  · simp at h; simp [h]
  · simp at h
    split <;> simp_all

theorem decode_reserved_iff (w : ControlWord) : decode w = .invalid .reservedControlBits ↔ w.toNat / 1024 ≠ 0 := by
  rw [ne_eq, ← rsvField_eq_zero_iff, decode]
  split <;> rename_i h
  · simpa using h
  · simp at h
    split <;> simp [h]

theorem decode_invalidOperation_iff (w : ControlWord) :
    decode w = .invalid .invalidOperation ↔ w.toNat / 1024 = 0 ∧ 17 ≤ w.toNat % 32 := by
  rw [← rsvField_eq_zero_iff, ← opField_toNat, ← instrOfCode_eq_none_iff _ (tselField w) (vField w), decode]
  split <;> rename_i h
  · simp at h; simp [h]
  · simp at h
    split <;> simp_all

/-- All that a step can do: run the command the word decodes to, or refuse the word. -/
theorem step_cases (s : State) :
    (∃ i, decode s.cw = .command i ∧ step s = exec i s) ∨ (∃ r, decode s.cw = .invalid r ∧ step s = refuseInvalid r) := by
  rcases h : decode s.cw with i | r
  · exact .inl ⟨i, rfl, by simp only [step, fetch, h]⟩
  · exact .inr ⟨r, rfl, by simp only [step, fetch, h]⟩

end Sys2Proof.Laws
end

