-- ==== Sys2Proof/Laws/Ops.lean ====
section
/-! SUPPORT. One lemma per primitive and per shared operation that says all it can do; later proofs cite these and do not unfold. -/

namespace Sys2Proof.Laws

open Sys2Proof.Machine Sys2Proof.Safety

theorem two_pow_pos (B : Nat) : (0 : Int) < (2 : Int) ^ B := Int.pow_pos (by decide)

/-- `patternOf` as an integer is the Euclidean remainder. -/
theorem patternOf_cast (B : Nat) (a : Int) : (patternOf B a : Int) = a % (2 : Int) ^ B :=
  Int.toNat_of_nonneg (Int.emod_nonneg a (two_pow_pos B).ne')

theorem patternOf_lt (B : Nat) (a : Int) : patternOf B a < 2 ^ B := by
  have h := Int.emod_lt_of_pos a (two_pow_pos B)
  rw [← patternOf_cast] at h
  exact_mod_cast h

/-- The coercion, as an integer: one addition of `2^B` for a negative operand of `C(B)` is the remainder (R10). -/
theorem upat_eq_emod {B : Nat} {a : Int} (h : InCoercionDomain B a) : upat B a = a % (2 : Int) ^ B := by
  obtain ⟨lo, hi⟩ := h
  unfold upat
  split
  · rw [Int.emod_eq_of_lt] <;> omega
  · rcases Int.lt_or_eq_of_le lo with h1 | h1
    · rw [← Int.add_emod_right, Int.emod_eq_of_lt] <;> omega
    · simp [← h1]

/-- On `C(B)` the pattern is the low `B` bits of the port. -/
theorem pattern_eq_patternOf {B : Nat} {a : Int} (h : InCoercionDomain B a) : pattern B a = patternOf B a := by
  rw [pattern, upat_eq_emod h, patternOf]

theorem maskTo_eq_mod (B : Nat) (x : Nat) : maskTo B x = x % 2 ^ B := Nat.and_two_pow_sub_one_eq_mod x B

theorem maskTo_of_lt {B : Nat} {x : Nat} (h : x < 2 ^ B) : maskTo B x = x := by
  rw [maskTo_eq_mod, Nat.mod_eq_of_lt h]

theorem signExtend_eq_readAs (B : Nat) (x : Nat) : signExtend B x = readAs true B x := by
  simp [signExtend, readAs]

/-- The engine's back end: mask, then read as the type (R16). -/
theorem finish_eq_readAs (B : Nat) (x : Nat) (s : Bool) : finish B x s = readAs s B (x % 2 ^ B) := by
  cases s
  · simp [finish, readAs, maskTo_eq_mod]
  · simp [finish, signExtend_eq_readAs, maskTo_eq_mod]

theorem readAs_false (B : Nat) (x : Nat) : readAs false B x = (x : Int) := by simp [readAs]

/-- The front end: on `C(B)` the rest of the meaning gets the pattern; outside it the command is refused (R71). -/
theorem withPattern_of_mem {B : Nat} {a : Int} (h : InCoercionDomain B a) (k : Nat → Result) :
    withPattern B a k = k (patternOf B a) := by
  rw [withPattern, if_pos h, pattern_eq_patternOf h]

theorem withPattern_of_not_mem {B : Nat} {a : Int} (h : ¬InCoercionDomain B a) (k : Nat → Result) :
    withPattern B a k = .refused .operandOutOfDomain := if_neg h

theorem withCount_of_nonneg {B : Nat} {n : Int} (h : 0 ≤ n) (k : Nat → Result) :
    withCount B n k = k (n % (B : Int)).toNat := if_pos h

theorem withCount_of_neg {B : Nat} {n : Int} (h : n < 0) (k : Nat → Result) :
    withCount B n k = .refused .negativeCount := if_neg (by omega)

theorem withIndex_of_nonneg {n : Int} (h : 0 ≤ n) (k : Nat → Result) : withIndex n k = k n.toNat := if_pos h

theorem withIndex_of_neg {n : Int} (h : n < 0) (k : Nat → Result) :
    withIndex n k = .refused .negativeCount := if_neg (by omega)

/-- All that the front end can do, on an answer that is a next state. -/
theorem withPattern_next {B : Nat} {a : Int} {k : Nat → Result} {t : State} (h : withPattern B a k = .next t) :
    InCoercionDomain B a ∧ k (patternOf B a) = .next t := by
  by_cases hd : InCoercionDomain B a
  · exact ⟨hd, by rwa [withPattern_of_mem hd] at h⟩
  · rw [withPattern_of_not_mem hd] at h; cases h

theorem withCount_next {B : Nat} {n : Int} {k : Nat → Result} {t : State} (h : withCount B n k = .next t) :
    0 ≤ n ∧ k (n % (B : Int)).toNat = .next t := by
  rcases Int.lt_or_le n 0 with hn | hn
  · rw [withCount_of_neg hn] at h; cases h
  · exact ⟨hn, by rwa [withCount_of_nonneg hn] at h⟩

theorem withIndex_next {n : Int} {k : Nat → Result} {t : State} (h : withIndex n k = .next t) :
    0 ≤ n ∧ k n.toNat = .next t := by
  rcases Int.lt_or_le n 0 with hn | hn
  · rw [withIndex_of_neg hn] at h; cases h
  · exact ⟨hn, by rwa [withIndex_of_nonneg hn] at h⟩

/-- All that a response can do. -/
theorem respond_next {s t : State} {r : Response} (h : respond s r = .next t) : t = { s with response := some r } := by
  cases h; rfl

theorem refuseInvalid_ne_next (r : InvalidReason) (t : State) : refuseInvalid r ≠ .next t := by cases r <;> simp [refuseInvalid]

/-- The fill of the arithmetic shift: `k` ones at the top of the `B`-bit pattern. -/
theorem signFill_eq (B k : Nat) : signFill B k = (2 ^ k - 1) * 2 ^ (B - k) := by
  simp [signFill, Nat.shiftLeft_eq]

theorem bitAt_eq_testBit (ua : Nat) (i : Nat) : bitAt ua i = (ua.testBit i).toNat := by
  rw [bitAt, Nat.toNat_testBit, Nat.shiftRight_eq_div_pow, Nat.and_one_is_mod]

end Sys2Proof.Laws
end

