-- ==== Sys2Proof/Laws/TypeTable.lean ====
section
/-! SUPPORT. The descriptor a selector picks: its width, and its bounds by the width (10_state.md R24, R25, R26). -/

namespace Sys2Proof.Laws

open Sys2Proof.Machine Sys2Proof.Safety

theorem rom_bits (t : Fin 8) : (rom t).bits = 8 ∨ (rom t).bits = 16 ∨ (rom t).bits = 32 ∨ (rom t).bits = 64 := by
  revert t; decide

/-- The width is 8, 16, 32 or 64 (00_scope.md R5). -/
theorem descriptor_bits (tsel : TypeSelector) :
    (descriptor tsel).bits = 8 ∨ (descriptor tsel).bits = 16 ∨ (descriptor tsel).bits = 32 ∨ (descriptor tsel).bits = 64 :=
  rom_bits _

theorem descriptor_bits_pos (tsel : TypeSelector) : 1 ≤ (descriptor tsel).bits := by
  rcases descriptor_bits tsel with h | h | h | h <;> omega

theorem descriptor_bits_le (tsel : TypeSelector) : (descriptor tsel).bits ≤ 64 := by
  rcases descriptor_bits tsel with h | h | h | h <;> omega

/-- The bounds by the width and the signedness (R25). -/
theorem rom_bounds (t : Fin 8) :
    (rom t).min = (if (rom t).signed then -(2 : Int) ^ ((rom t).bits - 1) else 0) ∧
    (rom t).max = (if (rom t).signed then (2 : Int) ^ ((rom t).bits - 1) - 1 else (2 : Int) ^ (rom t).bits - 1) := by
  revert t; decide

theorem descriptor_min (tsel : TypeSelector) :
    (descriptor tsel).min = if (descriptor tsel).signed then -(2 : Int) ^ ((descriptor tsel).bits - 1) else 0 :=
  (rom_bounds _).1

theorem descriptor_max (tsel : TypeSelector) :
    (descriptor tsel).max =
      if (descriptor tsel).signed then (2 : Int) ^ ((descriptor tsel).bits - 1) - 1
      else (2 : Int) ^ (descriptor tsel).bits - 1 :=
  (rom_bounds _).2

/-- `RANGE = max - min + 1 = 2^B` for every descriptor (R25). -/
theorem rom_range (t : Fin 8) : (rom t).max - (rom t).min + 1 = (2 : Int) ^ (rom t).bits := by
  revert t; decide

theorem descriptor_range (tsel : TypeSelector) :
    (descriptor tsel).max - (descriptor tsel).min + 1 = (2 : Int) ^ (descriptor tsel).bits := rom_range _

theorem wrapInto_descriptor (tsel : TypeSelector) (v : Int) :
    wrapInto v (descriptor tsel).min (descriptor tsel).max =
      (v - (descriptor tsel).min) % (2 : Int) ^ (descriptor tsel).bits + (descriptor tsel).min := by
  rw [wrapInto, descriptor_range]

/-- The top half of the width's numbers: `2^B = 2 * 2^(B-1)`. -/
theorem two_pow_half {B : Nat} (h : 1 ≤ B) : (2 : Int) ^ B = 2 * (2 : Int) ^ (B - 1) := by
  obtain ⟨n, rfl⟩ : ∃ n, B = n + 1 := ⟨B - 1, by omega⟩
  simp [pow_succ, mul_comm]

end Sys2Proof.Laws
end

