-- ==== Sys2Proof/Laws/Engine.lean ====
section
/-! SUPPORT. What the shared operations of the datapath do to a pattern, bit by bit and as numbers (files 40 to 44 of spec/). -/

namespace Sys2Proof.Laws

open Sys2Proof.Machine Sys2Proof.Safety

section Patterns

theorem two_pow_cast (B : Nat) : ((2 ^ B : Nat) : Int) = (2 : Int) ^ B := by push_cast; rfl

/-- A number below `2^B` is in `C(B)` and is its own pattern. -/
theorem natCast_mem_coercionDomain {B x : Nat} (h : x < 2 ^ B) : InCoercionDomain B x := by
  have e := two_pow_cast B
  constructor <;> omega

theorem patternOf_natCast {B x : Nat} (h : x < 2 ^ B) : patternOf B x = x := by
  have e := two_pow_cast B
  rw [patternOf, Int.emod_eq_of_lt (by omega) (by omega), Int.toNat_natCast]

/-- The port's low `B` bits, as the library's bit vector. -/
theorem toNat_ofInt_eq_patternOf (B : Nat) (a : Int) : (BitVec.ofInt B a).toNat = patternOf B a := by
  rw [BitVec.toNat_ofInt, patternOf]; push_cast; rfl

theorem testBit_eq_false_of_lt {B x i : Nat} (h : x < 2 ^ B) (hi : B ≤ i) : x.testBit i = false :=
  Nat.testBit_lt_two_pow (lt_of_lt_of_le h (Nat.pow_le_pow_right (by decide) hi))

theorem testBit_complement {B x : Nat} (h : x < 2 ^ B) (i : Nat) :
    (2 ^ B - 1 - x).testBit i = (decide (i < B) && !x.testBit i) := by
  rw [Nat.sub_sub, Nat.add_comm, Nat.testBit_two_pow_sub_succ h]

theorem complement_lt (B u : Nat) : complement B u < 2 ^ B := by
  have := Nat.two_pow_pos B
  unfold complement maskValue; omega

/-- A pattern read as a value is in `C(B)`, and its pattern is the one read: a result may be fed back (R94). -/
theorem readAs_mem_coercionDomain {B : Nat} (sg : Bool) {x : Nat} (h : x < 2 ^ B) :
    InCoercionDomain B (readAs sg B x) ∧ patternOf B (readAs sg B x) = x := by
  have e := two_pow_cast B
  unfold readAs
  split
  · refine ⟨by constructor <;> omega, ?_⟩
    rw [patternOf, Int.sub_emod_right, Int.emod_eq_of_lt (by omega) (by omega), Int.toNat_natCast]
  · exact ⟨natCast_mem_coercionDomain h, patternOf_natCast h⟩

/-- The range of a pattern read as a value. -/
theorem readAs_bounds {B : Nat} (hB : 1 ≤ B) (sg : Bool) {x : Nat} (h : x < 2 ^ B) :
    -(2 : Int) ^ (B - 1) ≤ readAs sg B x ∧ readAs sg B x ≤ (2 : Int) ^ B - 1 := by
  have e := two_pow_cast B
  have e1 := two_pow_cast (B - 1)
  have h2 := two_pow_half hB
  have := two_pow_pos (B - 1)
  unfold readAs
  split <;> constructor <;> omega

end Patterns

section Registry

/-- Saturation ends in the interval, and is the identity on it (R64). -/
theorem saturate_mem {d : Descriptor} (h : d.min ≤ d.max) (a : Int) : d.min ≤ saturate d a ∧ saturate d a ≤ d.max := by
  simp only [saturate, belowMin, aboveMax, decide_eq_true_eq]
  split_ifs <;> constructor <;> omega

theorem saturate_of_mem {d : Descriptor} {a : Int} (h1 : d.min ≤ a) (h2 : a ≤ d.max) : saturate d a = a := by
  simp [saturate, belowMin, aboveMax]; omega

theorem overflow_iff (d : Descriptor) (a : Int) : overflow d a = true ↔ a < d.min ∨ d.max < a := by
  simp [overflow, belowMin, aboveMax]

/-- The wrap ends in the interval (R17). -/
theorem wrapInto_mem {lo hi : Int} (h : lo ≤ hi) (v : Int) : lo ≤ wrapInto v lo hi ∧ wrapInto v lo hi ≤ hi := by
  have hn := Int.emod_nonneg (v - lo) (show hi - lo + 1 ≠ 0 by omega)
  have hl := Int.emod_lt_of_pos (v - lo) (show 0 < hi - lo + 1 by omega)
  unfold wrapInto
  constructor <;> omega

end Registry

section Gates

theorem logicGate_of_mem {gate : Nat → Nat → Nat} {tsel : TypeSelector} {s : State}
    (ha : InCoercionDomain (descriptor tsel).bits s.a) (hb : InCoercionDomain (descriptor tsel).bits s.b) :
    logicGate gate tsel s =
      respond s (.rv (gate (patternOf (descriptor tsel).bits s.a) (patternOf (descriptor tsel).bits s.b) %
        2 ^ (descriptor tsel).bits : Nat)) := by
  simp only [logicGate, withPattern_of_mem ha, withPattern_of_mem hb, finish_eq_readAs, readAs_false]

theorem logicGate_of_not_mem {gate : Nat → Nat → Nat} {tsel : TypeSelector} {s : State}
    (h : ¬(InCoercionDomain (descriptor tsel).bits s.a ∧ InCoercionDomain (descriptor tsel).bits s.b)) :
    logicGate gate tsel s = .refused .operandOutOfDomain := by
  unfold logicGate
  by_cases ha : InCoercionDomain (descriptor tsel).bits s.a
  · simp only [withPattern_of_mem ha, withPattern_of_not_mem fun hb => h ⟨ha, hb⟩]
  · exact withPattern_of_not_mem ha _

end Gates

section Counts

/-- A reduced count is below the width (R78). -/
theorem reducedCount_lt (tsel : TypeSelector) (n : Int) :
    (n % ((descriptor tsel).bits : Int)).toNat < (descriptor tsel).bits := by
  have := descriptor_bits_pos tsel
  have h1 := Int.emod_lt_of_pos n (show (0 : Int) < (descriptor tsel).bits by omega)
  have h2 := Int.emod_nonneg n (show ((descriptor tsel).bits : Int) ≠ 0 by omega)
  omega

end Counts

section Rotates

/-- The upper part of a left rotation is a multiple of `2^k`, so the two parts do not overlap. -/
theorem rotate_upper_part {B k : Nat} (hk : k ≤ B) (ua : Nat) : ua * 2 ^ k % 2 ^ B = (ua % 2 ^ (B - k)) * 2 ^ k := by
  have : 2 ^ B = 2 ^ (B - k) * 2 ^ k := by rw [← pow_add, Nat.sub_add_cancel hk]
  rw [this, Nat.mul_mod_mul_right]

theorem rotateLeft_lt (B k ua : Nat) : rotateLeft B k ua < 2 ^ B := by
  rw [rotateLeft, maskTo_eq_mod]; exact Nat.mod_lt _ (Nat.two_pow_pos B)

/-- ROR by `k` is ROL by `B - k` (R87). -/
theorem rotateRight_eq_rotateLeft {B k : Nat} (hk : k ≤ B) (ua : Nat) : rotateRight B k ua = rotateLeft B (B - k) ua := by
  rw [rotateRight, rotateLeft, Nat.or_comm, Nat.sub_sub_self hk]

/-- Bit `j` of a left rotation: from the lower part below `k`, from the upper part above. -/
theorem testBit_rotateLeft {B k ua j : Nat} (hk : k ≤ B) (h : ua < 2 ^ B) (hj : j < B) :
    (rotateLeft B k ua).testBit j = if j < k then ua.testBit (B - k + j) else ua.testBit (j - k) := by
  rw [rotateLeft, maskTo_eq_mod, maskValue, Nat.and_two_pow_sub_one_eq_mod, Nat.testBit_mod_two_pow, Nat.testBit_or,
    Nat.testBit_mod_two_pow, Nat.testBit_shiftLeft, Nat.testBit_shiftRight]
  by_cases hjk : j < k
  · simp [hj, hjk, Nat.not_le.2 hjk]
  · have : ua.testBit (B - k + j) = false := testBit_eq_false_of_lt h (by omega)
    simp [hj, hjk, Nat.not_lt.1 hjk, this]

end Rotates

section Bits

/-- Exclusive and common bits add up to all of them. -/
theorem xor_add_and (a b : Nat) : (a ^^^ b) + (a &&& b) = a ||| b := by
  induction a using Nat.strong_induction_on generalizing b with
  | _ a ih =>
    by_cases ha : a = 0
    · subst ha; simp
    have h := ih (a / 2) (by omega) (b / 2)
    rw [← Nat.and_div_two, ← Nat.or_div_two, ← Nat.xor_div_two] at h
    have h1 : (a &&& b) % 2 = 1 ↔ a % 2 = 1 ∧ b % 2 = 1 := Nat.and_mod_two_eq_one
    have h2 : (a ||| b) % 2 = 1 ↔ a % 2 = 1 ∨ b % 2 = 1 := Nat.or_mod_two_eq_one
    have h3 := Nat.xor_mod_two_eq (m := a) (n := b)
    omega

theorem popCount_eq_sum (B ua : Nat) : popCount B ua = ∑ i ∈ Finset.range B, (ua.testBit i).toNat := by
  rw [popCount]
  induction B with
  | zero => simp
  | succ n ih => rw [List.range_succ, Finset.sum_range_succ, ← ih]; simp [bitAt_eq_testBit]

/-- Clearing one bit by subtraction leaves the others (R93). -/
theorem testBit_clear (ua i j : Nat) : (ua - (ua &&& 2 ^ i)).testBit j = (ua.testBit j && decide (i ≠ j)) := by
  have he : ua - (ua &&& 2 ^ i) = ua ^^^ (ua &&& 2 ^ i) := by
    have h := xor_add_and ua (ua &&& 2 ^ i)
    have hand : ua &&& (ua &&& 2 ^ i) = ua &&& 2 ^ i := by
      apply Nat.eq_of_testBit_eq; intro m; simp
    have hor : ua ||| (ua &&& 2 ^ i) = ua := by
      apply Nat.eq_of_testBit_eq; intro m; simp; intros; assumption
    omega
  rw [he, Nat.testBit_xor, Nat.testBit_and, Nat.testBit_two_pow]
  cases ua.testBit j <;> simp

/-- Writing a bit inside the width changes that bit and no other (R93). -/
theorem testBit_writeBit {B ua i : Nat} (hi : i < B) (v : Bool) (j : Nat) :
    (writeBit B ua i v).testBit j = if j = i then v else ua.testBit j := by
  rw [writeBit, if_pos (by omega)]
  cases v
  · simp only [Bool.false_eq_true, if_false, testBit_clear]
    by_cases hj : j = i
    · simp [hj]
    · simp [hj, Ne.symm hj]
  · simp only [if_true, Nat.testBit_or, Nat.testBit_two_pow]
    by_cases hj : j = i
    · simp [hj]
    · simp [hj, Ne.symm hj]

theorem writeBit_of_le {B ua i : Nat} (hB : 1 ≤ B) (hi : B ≤ i) (v : Bool) : writeBit B ua i v = ua :=
  if_neg (by omega)

theorem writeBit_lt {B ua i : Nat} (hB : 1 ≤ B) (h : ua < 2 ^ B) (v : Bool) : writeBit B ua i v < 2 ^ B := by
  rcases Nat.lt_or_ge i B with hi | hi
  · apply Nat.lt_pow_two_of_testBit
    intro j hj
    rw [testBit_writeBit hi, if_neg (by omega), testBit_eq_false_of_lt h hj]
  · rwa [writeBit_of_le hB hi]

end Bits

end Sys2Proof.Laws
end

