-- ==== Sys2Proof/Laws/PerInstr.lean ====
section
/-! SUPPORT. Per command: the fields of its control word are its operation code, its selector and its bit, with the reserved bits
zero (30_encoding.md R44). -/

namespace Sys2Proof.Laws.ControlWordFields

def Statement (i : Instr) : Prop :=
  (opField (encode i)).toNat = i.opcode ∧ tselField (encode i) = i.tsel ∧ vField (encode i) = i.bitValue ∧
    rsvField (encode i) = 0

theorem fields_of_controlWord : ∀ (op : Fin 32) (t : TypeSelector) (v : Bool),
    (opField (controlWordOf op.val t v)).toNat = op.val ∧ tselField (controlWordOf op.val t v) = t ∧
      vField (controlWordOf op.val t v) = v ∧ rsvField (controlWordOf op.val t v) = 0 := by
  decide +kernel

theorem and (t : TypeSelector) (v : Bool) : Statement (.and t v) := fields_of_controlWord 0 t v
theorem or (t : TypeSelector) (v : Bool) : Statement (.or t v) := fields_of_controlWord 1 t v
theorem xor (t : TypeSelector) (v : Bool) : Statement (.xor t v) := fields_of_controlWord 2 t v
theorem not (t : TypeSelector) (v : Bool) : Statement (.not t v) := fields_of_controlWord 3 t v
theorem shl (t : TypeSelector) (v : Bool) : Statement (.shl t v) := fields_of_controlWord 4 t v
theorem shr (t : TypeSelector) (v : Bool) : Statement (.shr t v) := fields_of_controlWord 5 t v
theorem ushr (t : TypeSelector) (v : Bool) : Statement (.ushr t v) := fields_of_controlWord 6 t v
theorem rol (t : TypeSelector) (v : Bool) : Statement (.rol t v) := fields_of_controlWord 7 t v
theorem ror (t : TypeSelector) (v : Bool) : Statement (.ror t v) := fields_of_controlWord 8 t v
theorem popcnt (t : TypeSelector) (v : Bool) : Statement (.popcnt t v) := fields_of_controlWord 9 t v
theorem getbit (t : TypeSelector) (v : Bool) : Statement (.getbit t v) := fields_of_controlWord 10 t v
theorem setbit (t : TypeSelector) (v : Bool) : Statement (.setbit t v) := fields_of_controlWord 11 t v
theorem chkovf (t : TypeSelector) (v : Bool) : Statement (.chkovf t v) := fields_of_controlWord 12 t v
theorem clamp (t : TypeSelector) (v : Bool) : Statement (.clamp t v) := fields_of_controlWord 13 t v
theorem wrap (t : TypeSelector) (v : Bool) : Statement (.wrap t v) := fields_of_controlWord 14 t v
theorem cvt (t : TypeSelector) (v : Bool) : Statement (.cvt t v) := fields_of_controlWord 15 t v
theorem lookup (t : TypeSelector) (v : Bool) : Statement (.lookup t v) := fields_of_controlWord 16 t v

end Sys2Proof.Laws.ControlWordFields
end

