-- ==== Sys2Proof/Laws/State.lean ====
section
/-! SUPPORT. One lemma per field per update of the state. -/

namespace Sys2Proof.Laws

open Sys2Proof.Machine

@[simp] theorem present_cw (s : State) (c : Command) : (s.present c).cw = c.cw := rfl
@[simp] theorem present_a (s : State) (c : Command) : (s.present c).a = c.a := rfl
@[simp] theorem present_b (s : State) (c : Command) : (s.present c).b = c.b := rfl
@[simp] theorem present_response (s : State) (c : Command) : (s.present c).response = s.response := rfl

@[simp] theorem withFetchWord_cw (s : State) (n w : Nat) :
    (s.withFetchWord n w).cw = BitVec.ofNat 16 (w % 2 ^ n) := rfl
@[simp] theorem withFetchWord_a (s : State) (n w : Nat) : (s.withFetchWord n w).a = s.a := rfl
@[simp] theorem withFetchWord_b (s : State) (n w : Nat) : (s.withFetchWord n w).b = s.b := rfl
@[simp] theorem withFetchWord_response (s : State) (n w : Nat) : (s.withFetchWord n w).response = s.response := rfl

@[simp] theorem fetch_eq_cw (s : State) : fetch s = s.cw := rfl

@[simp] theorem reset_cw : State.reset.cw = 0 := rfl
@[simp] theorem reset_a : State.reset.a = 0 := rfl
@[simp] theorem reset_b : State.reset.b = 0 := rfl
@[simp] theorem reset_response : State.reset.response = none := rfl

end Sys2Proof.Laws
end

