-- ==== Sys2Proof/Tests/Slice0.lean ====
section
/-! SUPPORT. Tests of the model. Expected values are the spec's: the vectors of 95_test_vectors.md, or its rules worked by hand where
the comment says so. Then, for each obligation with hypotheses, a state and operands that meet them. -/

namespace Sys2Proof.Tests

open Sys2Proof.Machine Sys2Proof.Safety

section WellFormedSmoke

theorem test_reserved_bit_is_ill_formed : ControlWord.wellFormed 0x0400#16 = false := by decide
theorem test_op17_is_ill_formed : ControlWord.wellFormed 0x0011#16 = false := by decide
theorem test_lookup_T15_is_well_formed : ControlWord.wellFormed 0x03F0#16 = true := by decide
/-- R51: NOT with `v = 1` is legal and not canonical. -/
theorem test_not_with_v_is_not_canonical : Instr.canonical (.not 0 true) = false := by decide
theorem test_setbit_with_v_is_canonical : Instr.canonical (.setbit 0 true) = true := by decide
/-- R46: `2^64` does not fit a 65-bit signed port, `2^64 - 1` does. -/
theorem test_above_port_is_not_presentable : ¬Command.Presentable 65 ⟨0x00EC#16, 18446744073709551616, 0⟩ := by decide
theorem test_below_port_is_not_presentable : ¬Command.Presentable 65 ⟨0x0020#16, 0, -18446744073709551617⟩ := by decide
theorem test_port_end_is_presentable : Command.Presentable 65 ⟨0x00EC#16, 18446744073709551615, -18446744073709551616⟩ := by
  decide

end WellFormedSmoke

section Decoding

/-! One word per command, written out bit by bit as `rsv v tsel op` (R44), control words of 95_test_vectors.md. -/

theorem test_decode_and : decode 0b000000_0_0001_00000#16 = .command (.and 1 false) := by decide
theorem test_decode_or : decode 0b000000_0_0111_00001#16 = .command (.or 7 false) := by decide
theorem test_decode_xor : decode 0b000000_0_0001_00010#16 = .command (.xor 1 false) := by decide
theorem test_decode_not : decode 0b000000_1_0000_00011#16 = .command (.not 0 true) := by decide
theorem test_decode_shl : decode 0b000000_0_0100_00100#16 = .command (.shl 4 false) := by decide
theorem test_decode_shr : decode 0b000000_0_0110_00101#16 = .command (.shr 6 false) := by decide
theorem test_decode_ushr : decode 0b000000_0_0010_00110#16 = .command (.ushr 2 false) := by decide
theorem test_decode_rol : decode 0b000000_0_0101_00111#16 = .command (.rol 5 false) := by decide
theorem test_decode_ror : decode 0b000000_0_0101_01000#16 = .command (.ror 5 false) := by decide
theorem test_decode_popcnt : decode 0b000000_0_0011_01001#16 = .command (.popcnt 3 false) := by decide
theorem test_decode_getbit : decode 0b000000_0_0110_01010#16 = .command (.getbit 6 false) := by decide
theorem test_decode_setbit : decode 0b000000_1_0010_01011#16 = .command (.setbit 2 true) := by decide
theorem test_decode_chkovf : decode 0b000000_0_1100_01100#16 = .command (.chkovf 12 false) := by decide
theorem test_decode_clamp : decode 0b000000_0_1111_01101#16 = .command (.clamp 15 false) := by decide
theorem test_decode_wrap : decode 0b000000_0_0010_01110#16 = .command (.wrap 2 false) := by decide
theorem test_decode_cvt : decode 0b000000_0_1001_01111#16 = .command (.cvt 9 false) := by decide
theorem test_decode_lookup : decode 0b000000_1_1111_10000#16 = .command (.lookup 15 true) := by decide
theorem test_decode_reserved_first : decode 0x0411#16 = .invalid .reservedControlBits := by decide
theorem test_decode_all_ones : decode 0xFFFF#16 = .invalid .reservedControlBits := by decide
theorem test_decode_op31 : decode 0x001F#16 = .invalid .invalidOperation := by decide

theorem test_table_word_setbit : decodeTableWord 16 0x000B = some (.setbit 0 false) := by decide
theorem test_table_word_refused : decodeTableWord 16 0x0012 = none := by decide
/-- The first step after reset runs the table's word: LOOKUP.INT8. -/
theorem test_first_step_runs_the_word :
    reply (step (State.reset.withFetchWord 16 0x0010)) = .response (some (.rd 0 8 true (-128) 127)) := by decide

end Decoding

section Vectors

/-- The reply to a command presented to the machine as reset leaves it. -/
def present1 (cw : ControlWord) (a b : Int) : Reply := reply (step (State.reset.present ⟨cw, a, b⟩))

theorem test_and_never_negative : present1 0x0000 (-1) (-1) = .response (some (.rv 255)) := by decide
theorem test_and_checks_B : present1 0x0020 1 256 = .refused .operandOutOfDomain := by decide
theorem test_or_int8 : present1 0x0001 (-128) 1 = .response (some (.rv 129)) := by decide
theorem test_or_uint64 : present1 0x00E1 (-1) 0 = .response (some (.rv 18446744073709551615)) := by decide
theorem test_xor_same_pattern : present1 0x0022 (-1) 255 = .response (some (.rv 0)) := by decide
theorem test_xor_uint8 : present1 0x0022 12 10 = .response (some (.rv 6)) := by decide
theorem test_not_d0 : present1 0x0003 5 0 = .response (some (.rv (-6))) := by decide
theorem test_not_ignores_B_and_v : present1 0x0223 5 (-1) = .response (some (.rv 250)) := by decide
theorem test_shl_into_sign : present1 0x0084 1 31 = .response (some (.rv (-2147483648))) := by decide
theorem test_shl_by_width : present1 0x0084 1 35 = .response (some (.rv 8)) := by decide
theorem test_shr_value_sign_decides : present1 0x0005 255 1 = .response (some (.rv 127)) := by decide
theorem test_shr_below_range : present1 0x0005 (-200) 1 = .response (some (.rv (-100))) := by decide
theorem test_ushr_negative : present1 0x0006 (-128) 1 = .response (some (.rv 64)) := by decide
theorem test_ushr_count_unchecked_above : present1 0x0026 255 256 = .response (some (.rv 255)) := by decide
theorem test_rol_uint32 : present1 0x00A7 305419896 8 = .response (some (.rv 878082066)) := by decide
theorem test_rol_negative_count : present1 0x0027 1 (-8) = .refused .negativeCount := by decide
theorem test_ror_uint32 : present1 0x00A8 305419896 8 = .response (some (.rv 2014458966)) := by decide
theorem test_ror_not_negative : present1 0x00C8 1 1 = .response (some (.rv 9223372036854775808)) := by decide
theorem test_popcnt_below_range : present1 0x0029 (-200) 0 = .response (some (.rv 3)) := by decide
theorem test_popcnt_domain : present1 0x00C9 (-18446744073709551617) 0 = .refused .operandOutOfDomain := by decide
theorem test_getbit_sign : present1 0x000A (-128) 7 = .response (some (.rv 1)) := by decide
theorem test_getbit_not_reduced : present1 0x002A 255 8 = .response (some (.rv 0)) := by decide
theorem test_setbit_sign : present1 0x020B 0 7 = .response (some (.rv (-128))) := by decide
theorem test_setbit_clears_and_extends : present1 0x000B 255 0 = .response (some (.rv (-2))) := by decide
theorem test_chkovf_saturates : present1 0x000C (-129) 0 = .response (some (.ro true (-128) 127 (-129))) := by decide
theorem test_chkovf_wraps : present1 0x002C (-300) 0 = .response (some (.ro true 212 212 (-300))) := by decide
theorem test_clamp_unsigned : present1 0x002D (-1) 0 = .response (some (.rv 0)) := by decide
theorem test_clamp_unknown_name : present1 0x01ED 1099511627776 0 = .response (some (.rv 2147483647)) := by decide
theorem test_wrap_int16 : present1 0x004E 70000 0 = .response (some (.rv 4464)) := by decide
theorem test_wrap_int64 :
    present1 0x00CE (-9223372036854775809) 0 = .response (some (.rv 9223372036854775807)) := by decide
theorem test_cvt_negative : present1 0x000F (-129) 0 = .response (some (.rv 127)) := by decide
theorem test_cvt_uint64 : present1 0x00EF 18446744073709551619 0 = .response (some (.rv 3)) := by decide
theorem test_lookup_uint64 :
    present1 0x00F0 0 0 = .response (some (.rd 7 64 false 0 18446744073709551615)) := by decide
theorem test_lookup_unknown_name :
    present1 0x0110 0 0 = .response (some (.rd 4 32 true (-2147483648) 2147483647)) := by decide
theorem test_operand_reported_before_count : present1 0x0025 300 (-1) = .refused .operandOutOfDomain := by decide

end Vectors

section HostNotation

/-- 95 section 2: the encodings the spec prints beside its lines. -/
theorem test_assemble_and : assembleText "AND.UINT8 12, 10" = some ⟨0x0020, 12, 10⟩ := by decide
theorem test_assemble_setbit : assembleText "SETBIT.INT8 -1, 7, 0 -- clears" = some ⟨0x000B, -1, 7⟩ := by decide
theorem test_assemble_hex : assembleText "ROL.UINT8 0xB4, 3" = some ⟨0x0027, 180, 3⟩ := by decide
theorem test_assemble_lookup : assembleText "LOOKUP.T9" = some ⟨0x0130, 0, 0⟩ := by decide
theorem test_assemble_binary : assembleText "NOT.UINT8 0b101" = some ⟨0x0023, 5, 0⟩ := by decide
/-- R56: NOT takes one operand. -/
theorem test_assemble_refuses_wrong_form : assembleText "NOT.UINT8 5, 6" = none := by decide
theorem test_assemble_refuses_unknown : assembleText "ADD.INT8 1, 2" = none := by decide
theorem test_call_not : (Call.not 5 .w8 true).command = ⟨0x0003, 5, 0⟩ := by decide
theorem test_call_and : (Call.and 12 10 .w8).command = ⟨0x0020, 12, 10⟩ := by decide
/-- One script line that names no response the host has. -/
theorem test_script_needs_its_response :
    runScript [.command (.chkovf 4 false) (.response 1 .y) (.literal 0)] [] State.reset = .noSuchResponse := by decide
/-- Step 4 of 95 P1 on the response of step 3: the host substitutes `Y`. -/
theorem test_script_substitutes :
    runScript [.command (.chkovf 4 false) (.response 1 .y) (.literal 0)] [.rv 2147483648] State.reset =
      .finished [.rv 2147483648, .ro true 2147483647 (-2147483648) 2147483648] := by decide

end HostNotation

section Witnesses

/-! For each obligation with hypotheses: states and operands that meet them, at the ends of their ranges, clause by clause.
`UINT8` is selector 1, `INT8` selector 0; `C(8)` is `[-256, 255]`. -/

/-- The machine with these values on its operand ports. -/
def ports (a b : Int) : State := { State.reset with a := a, b := b }

/-- The same with a control word. -/
def portsCW (cw : ControlWord) (a b : Int) : State := { State.reset with cw := cw, a := a, b := b }

theorem witness_EncodeDecodeEveryWord : decode 0x03F0#16 = .command (.lookup 15 true) := by decide

theorem witness_InvalidWordsRefused :
    ((portsCW 0x0400 0 0).cw = 0x0400#16 ∧ (0x0400#16).toNat / 1024 ≠ 0) ∧
    ((portsCW 0x0011 0 0).cw = 0x0011#16 ∧ (0x0011#16).toNat / 1024 = 0 ∧ 17 ≤ (0x0011#16).toNat % 32) ∧
    ((0x03FF#16).toNat / 1024 = 0 ∧ 17 ≤ (0x03FF#16).toNat % 32) := by decide

theorem witness_StepRunsDecodedCommand : decode (portsCW 0x0027 180 3).cw = .command (.rol 1 false) := by decide

theorem witness_SafeCommandsRespond : ∀ q, step (portsCW 0x0020 255 (-256)) ≠ .refused q := by
  intro q h; cases h

theorem witness_StepChangesResponseOnly :
    step (portsCW 0x0020 12 10) = .next { portsCW 0x0020 12 10 with response := some (.rv 8) } := rfl

theorem witness_ReplyDependsOnCommandAlone :
    presented (portsCW 0x0020 12 10) = presented { portsCW 0x0020 12 10 with response := some (.rv 99) } := rfl

theorem witness_RepresentingIsIdempotent :
    step { portsCW 0x0020 12 10 with response := some (.rv 99) } =
      .next { portsCW 0x0020 12 10 with response := some (.rv 8) } := rfl

theorem witness_FormatFixedByOp :
    exec (.lookup 1 false) (ports 0 0) = .next { ports 0 0 with response := some (.rd 1 8 false 0 255) } := rfl

/-- Each clause of the ranges: an engine command, POPCNT, GETBIT, CHKOVF, CLAMP, CVT, LOOKUP, and a port of the least width. -/
theorem witness_ResponsesAreClosed :
    exec (.and 1 false) (ports (-256) 255) = .next { ports (-256) 255 with response := some (.rv 0) } ∧
    exec (.popcnt 1 false) (ports 255 0) = .next { ports 255 0 with response := some (.rv 8) } ∧
    exec (.getbit 1 false) (ports 255 7) = .next { ports 255 7 with response := some (.rv 1) } ∧
    exec (.chkovf 0 false) (ports 128 0) = .next { ports 128 0 with response := some (.ro true 127 (-128) 128) } ∧
    exec (.clamp 0 false) (ports 128 0) = .next { ports 128 0 with response := some (.rv 127) } ∧
    exec (.cvt 0 false) (ports 255 0) = .next { ports 255 0 with response := some (.rv (-1)) } ∧
    exec (.lookup 1 false) (ports 0 0) = .next { ports 0 0 with response := some (.rd 1 8 false 0 255) } ∧
    FitsPort 65 (ports 18446744073709551615 0).a :=
  ⟨rfl, rfl, rfl, rfl, rfl, rfl, rfl, by decide⟩

theorem witness_StepKeepsPortsFitting :
    PortsFit 65 (portsCW 0x00EC (-18446744073709551616) 18446744073709551615) ∧
    step (portsCW 0x00EC (-18446744073709551616) 18446744073709551615) =
      .next { portsCW 0x00EC (-18446744073709551616) 18446744073709551615 with
        response := some (.ro true 0 0 (-18446744073709551616)) } :=
  ⟨⟨by decide, by decide, fun _ h => nomatch h⟩, rfl⟩

theorem witness_ResetPortsFit : 65 ≤ 65 := Nat.le_refl 65

theorem witness_UnusedInputsIgnored :
    (16 ≤ 16 ∧ (AsmLine.mk 16 .noOperands 0 []).assemble = some ⟨0x0010, 0, 0⟩) ∧
    (9 ≤ 16 ∧ (AsmLine.mk 9 .oneOperand 1 [255]).assemble = some ⟨0x0029, 255, 0⟩) := by decide

theorem witness_ValuePortsCarryIntegers :
    FitsPort 65 18446744073709551615 ∧ InCoercionDomain (descriptor 7).bits 18446744073709551615 ∧
    FitsPort 65 (-18446744073709551616) ∧ InCoercionDomain (descriptor 7).bits (-18446744073709551616) := by decide

theorem witness_CoercionIsRemainder :
    InRegisterDomain 8 (-128) ∧ InRegisterDomain 8 255 ∧ InCoercionDomain 8 (-256) ∧ InCoercionDomain 8 255 := by decide

theorem witness_WrapFormulaConventions : (0 : Int) ≤ 0 ∧ (-128 : Int) ≤ 127 := by decide

theorem witness_DescriptorTable : (rom 6).signed = true ∧ (rom 7).signed = false := by decide

theorem witness_UnknownNamesAreInt32 :
    (7#4 : TypeSelector).toNat ≤ 7 ∧ 8 ≤ (8#4 : TypeSelector).toNat ∧ 8 ≤ (15#4 : TypeSelector).toNat ∧
    (Instr.shl 4 false).opcode = (Instr.shl 15 false).opcode ∧ (Instr.shl 4 false).bitValue = (Instr.shl 15 false).bitValue ∧
    canon (Instr.shl 4 false).tsel = canon (Instr.shl 15 false).tsel := by decide

/-- In range at both ends, below and above for a signed type, below and above for an unsigned type. -/
theorem witness_ChkovfResponds :
    ((descriptor 0).min ≤ (ports (-128) 0).a ∧ (ports 127 0).a ≤ (descriptor 0).max) ∧
    ((descriptor 0).signed = true ∧ (ports (-129) 0).a < (descriptor 0).min ∧ (descriptor 0).max < (ports 128 0).a) ∧
    ((descriptor 1).signed = false ∧ (ports (-1) 0).a < (descriptor 1).min ∧ (descriptor 1).max < (ports 256 0).a) := by decide

theorem witness_ClampResponds :
    (ports (-1) 0).a < (descriptor 1).min ∧ (descriptor 1).max < (ports 256 0).a ∧
    (descriptor 1).min ≤ (ports 0 0).a ∧ (ports 255 0).a ≤ (descriptor 1).max := by decide

theorem witness_RegistryLaws : (descriptor 0).min ≤ (ports 127 0).a ∧ (ports 127 0).a ≤ (descriptor 0).max := by decide

/-- Both ends of `C(8)`, and the first values outside it on either port: AND, OR, XOR, NOT and POPCNT. -/
theorem witness_AndResponds :
    InCoercionDomain (descriptor 1).bits (ports (-256) 255).a ∧ InCoercionDomain (descriptor 1).bits (ports (-256) 255).b ∧
    ¬InCoercionDomain (descriptor 1).bits (ports 256 0).a ∧ ¬InCoercionDomain (descriptor 1).bits (ports 0 (-257)).b := by
  decide
theorem witness_OrResponds :
    InCoercionDomain (descriptor 3).bits (ports 65535 (-65536)).a ∧
    InCoercionDomain (descriptor 3).bits (ports 65535 (-65536)).b ∧
    ¬InCoercionDomain (descriptor 3).bits (ports 0 65536).b := by decide
theorem witness_XorResponds :
    InCoercionDomain (descriptor 5).bits (ports 4294967295 0).a ∧ InCoercionDomain (descriptor 5).bits (ports 0 0).b ∧
    ¬InCoercionDomain (descriptor 5).bits (ports (-4294967297) 0).a := by decide
theorem witness_NotResponds :
    InCoercionDomain (descriptor 0).bits (ports 255 0).a ∧ ¬InCoercionDomain (descriptor 0).bits (ports 300 0).a := by decide

/-- The operand `a'` of the last law: 255 and -1 have the same pattern at width 8; -128 is in INT8's range. -/
theorem witness_LogicLaws :
    InCoercionDomain (descriptor 1).bits (ports 255 1).a ∧ InCoercionDomain (descriptor 1).bits (ports 255 1).b ∧
    InCoercionDomain (descriptor 1).bits (-1) ∧ (-1 : Int) % 2 ^ (descriptor 1).bits = (ports 255 1).a % 2 ^ (descriptor 1).bits ∧
    (descriptor 0).signed = true ∧ (descriptor 0).min ≤ (ports (-128) 1).a ∧ (ports 127 1).a ≤ (descriptor 0).max := by decide

theorem witness_LogicAgreesWithBitVec :
    InCoercionDomain (descriptor 6).bits (ports (-1) 5).a ∧ InCoercionDomain (descriptor 6).bits (ports (-1) 5).b := by decide

theorem witness_CountsReduceModuloWidth :
    InCoercionDomain (descriptor 0).bits (ports (-1) (-1)).a ∧ (ports (-1) (-1)).b < 0 ∧ 0 ≤ (ports (-1) 0).b := by decide

theorem witness_ShlResponds :
    InCoercionDomain (descriptor 4).bits (ports 1 31).a ∧ 0 ≤ (ports 1 31).b ∧
    ¬InCoercionDomain (descriptor 4).bits (ports 4294967296 0).a ∧ (ports 1 (-1)).b < 0 := by decide

/-- The arithmetic path, the logical path by an unsigned type and by a value that is not negative, and the two refusals. -/
theorem witness_ShrResponds :
    (InCoercionDomain (descriptor 0).bits (ports (-256) 0).a ∧ 0 ≤ (ports (-256) 0).b ∧ (descriptor 0).signed = true ∧
      (ports (-1) 0).a < 0) ∧
    ((descriptor 1).signed = false ∧ 0 ≤ (ports 0 7).a) ∧
    ¬InCoercionDomain (descriptor 0).bits (ports (-257) 0).a ∧ (ports (-256) (-1)).b < 0 := by decide

theorem witness_UshrResponds :
    InCoercionDomain (descriptor 7).bits (ports 18446744073709551615 63).a ∧ 0 ≤ (ports 18446744073709551615 63).b ∧
    ¬InCoercionDomain (descriptor 7).bits (ports 18446744073709551616 0).a ∧ (ports 0 (-1)).b < 0 := by decide

/-- A value in INT8's range, and one below it with a count of at least 1. -/
theorem witness_ShiftLaws :
    InCoercionDomain (descriptor 0).bits (ports (-128) 9).a ∧ 0 ≤ (ports (-128) 9).b ∧ (descriptor 0).signed = true ∧
    (descriptor 0).min ≤ (ports (-128) 9).a ∧ (ports (-128) 9).a ≤ (descriptor 0).max ∧
    InCoercionDomain (descriptor 0).bits (ports (-129) 1).a ∧ (ports (-129) 1).a < (descriptor 0).min ∧
    1 ≤ ((ports (-129) 1).b % ((descriptor 0).bits : Int)).toNat ∧ (descriptor 1).signed = false := by decide

theorem witness_ShiftAgreesWithBitVec :
    InCoercionDomain (descriptor 6).bits (ports (-9223372036854775808) 63).a ∧ 0 ≤ (ports (-9223372036854775808) 63).b ∧
    (descriptor 6).signed = true ∧ (descriptor 6).min ≤ (ports (-9223372036854775808) 63).a ∧
    (ports (-9223372036854775808) 63).a ≤ (descriptor 6).max ∧ (descriptor 7).signed = false := by decide

theorem witness_RolResponds :
    InCoercionDomain (descriptor 1).bits (ports 180 3).a ∧ 0 ≤ (ports 180 0).b ∧
    ¬InCoercionDomain (descriptor 1).bits (ports 256 3).a ∧ (ports 180 (-1)).b < 0 := by decide
theorem witness_RorResponds :
    InCoercionDomain (descriptor 0).bits (ports (-2) 1).a ∧ 0 ≤ (ports (-2) 8).b ∧
    ¬InCoercionDomain (descriptor 0).bits (ports (-257) 1).a ∧ (ports (-2) (-8)).b < 0 := by decide
theorem witness_RotatesMoveBits :
    InCoercionDomain (descriptor 1).bits (ports 129 9).a ∧ 0 ≤ (ports 129 9).b ∧ 7 < (descriptor 1).bits := by decide
/-- A count that reduces to 0 and one that does not. -/
theorem witness_RotateLaws :
    InCoercionDomain (descriptor 1).bits (ports (-76) 3).a ∧ 0 ≤ (ports (-76) 3).b ∧
    0 < ((ports (-76) 3).b % ((descriptor 1).bits : Int)).toNat ∧ ((ports (-76) 8).b % ((descriptor 1).bits : Int)).toNat = 0 := by
  decide
theorem witness_RotateAgreesWithBitVec :
    InCoercionDomain (descriptor 7).bits (ports 1 65).a ∧ 0 ≤ (ports 1 65).b := by decide

theorem witness_PopcntResponds :
    InCoercionDomain (descriptor 1).bits (ports (-256) 0).a ∧ ¬InCoercionDomain (descriptor 1).bits (ports (-257) 0).a := by decide
theorem witness_GetbitResponds :
    InCoercionDomain (descriptor 1).bits (ports 255 8).a ∧ 0 ≤ (ports 255 0).b ∧
    ¬InCoercionDomain (descriptor 1).bits (ports 256 8).a ∧ (ports 255 (-1)).b < 0 := by decide
/-- The last index inside the width, the first above it, and the two refusals. -/
theorem witness_SetbitResponds :
    InCoercionDomain (descriptor 1).bits (ports 5 7).a ∧ 0 ≤ (ports 5 0).b ∧ (ports 5 7).b ≤ ((descriptor 1).bits : Int) - 1 ∧
    ((descriptor 1).bits : Int) ≤ (ports 5 8).b ∧ ¬InCoercionDomain (descriptor 1).bits (ports 256 0).a ∧
    (ports 5 (-1)).b < 0 := by decide
theorem witness_BitLaws :
    InCoercionDomain (descriptor 0).bits (ports (-1) 7).a ∧ 0 ≤ (ports (-1) 7).b ∧
    (ports (-1) 7).b ≤ ((descriptor 0).bits : Int) - 1 ∧ ((6 : Nat) : Int) ≠ (ports (-1) 7).b ∧ (descriptor 0).bits ≤ 8 := by
  decide

/-- A signed and an unsigned width, a known type name. -/
theorem witness_CallsBecomeCommands :
    ((0#4 : TypeSelector).toNat ≤ 7 ∧ (descriptor 0).bits = Width.w8.bits ∧ (descriptor 0).signed = true) ∧
    ((7#4 : TypeSelector).toNat ≤ 7 ∧ (descriptor 7).bits = Width.w64.bits ∧ (descriptor 7).signed = false) ∧
    ((4#4 : TypeSelector).toNat ≤ 7 ∧ (descriptor 4).name = .INT32) := by decide

/-- One mnemonic of each operand form. -/
theorem witness_AssemblerEmitsTheLine :
    ("GETBIT", 10, AsmForm.twoOperands) ∈ mnemonicTable ∧ ("NOT", 3, AsmForm.oneOperand) ∈ mnemonicTable ∧
    ("LOOKUP", 16, AsmForm.noOperands) ∈ mnemonicTable ∧ ("SETBIT", 11, AsmForm.setbitOperands) ∈ mnemonicTable := by decide

theorem witness_AssemblerReadsText :
    ("SETBIT", 11, AsmForm.setbitOperands) ∈ mnemonicTable ∧ ("T15", 15#4) ∈ typeTable ∧
    literalValue "-128".toList = some (-128) ∧ literalValue "0x7".toList = some 7 ∧ " -- end" = " --" ++ " end" := by decide

end Witnesses

end Sys2Proof.Tests
end

/-! The type catalogue and the selector's fallback (10_state.md R24, R25, R26). -/

namespace Sys2Proof.StateProofs

open Sys2Proof.Machine Sys2Proof.Safety Sys2Proof.Laws

section Catalogue

theorem rom_names :
    ((List.finRange 8).map fun t => (rom t).name) =
      [.INT8, .UINT8, .INT16, .UINT16, .INT32, .UINT32, .INT64, .UINT64] := by decide

/-- The closed form of the width (R24). -/
theorem rom_bits_eq (t : Fin 8) : (rom t).bits = 8 * 2 ^ (t.val / 2) := by
  revert t; decide

/-- The signed types stand at the even indices (R24). -/
theorem rom_signed_iff (t : Fin 8) : (rom t).signed = true ↔ t.val % 2 = 0 := by
  revert t; decide

theorem rom_bounds_of_signed {t : Fin 8} (h : (rom t).signed = true) :
    (rom t).min = -(2 : Int) ^ ((rom t).bits - 1) ∧ (rom t).max = (2 : Int) ^ ((rom t).bits - 1) - 1 := by
  simpa only [h, if_true] using rom_bounds t

theorem rom_bounds_of_unsigned {t : Fin 8} (h : (rom t).signed = false) :
    (rom t).min = 0 ∧ (rom t).max = (2 : Int) ^ (rom t).bits - 1 := by
  simpa only [h, Bool.false_eq_true, if_false] using rom_bounds t

/-- Settles O22: the names and the closed form are read off the eight rows; the bounds follow from the width. -/
theorem descriptorTable : Obligations.DescriptorTable :=
  ⟨rom_names, fun t =>
    ⟨rom_bits_eq t, rom_signed_iff t, rom_range t, rom_bounds_of_signed, rom_bounds_of_unsigned⟩⟩

end Catalogue

section CanonicalIndex

theorem canon_of_known {tsel : TypeSelector} (h : tsel.toNat ≤ 7) : (canon tsel).val = tsel.toNat := by
  rw [canon, dif_pos (by omega)]

/-- The unknown names are INT32 (R26). -/
theorem canon_of_unknown {tsel : TypeSelector} (h : 8 ≤ tsel.toNat) : canon tsel = 4 := dif_neg (by omega)

theorem descriptor_congr {t u : TypeSelector} (h : canon t = canon u) : descriptor t = descriptor u :=
  congrArg rom h

/-- The meaning of an operation code reads the selector through its canonical index only: sixteen meanings through the
descriptor, LOOKUP through the index itself as well. -/
theorem exec_instrOfCode_congr {t u : TypeSelector} (h : canon t = canon u) (op : Nat) (v : Bool) (s : State) :
    (instrOfCode op t v).map (exec · s) = (instrOfCode op u v).map (exec · s) := by
  have hd : descriptor t = descriptor u := descriptor_congr h
  unfold instrOfCode
  split
  case h_1 | h_2 | h_3 => simp only [Option.map_some, exec, execAnd, execOr, execXor, logicGate, hd]
  case h_4 => simp only [Option.map_some, exec, execNot, hd]
  case h_5 | h_6 | h_7 => simp only [Option.map_some, exec, execShl, execShr, execUshr, hd]
  case h_8 | h_9 => simp only [Option.map_some, exec, execRol, execRor, hd]
  case h_10 | h_11 | h_12 => simp only [Option.map_some, exec, execPopcnt, execGetbit, execSetbit, hd]
  case h_13 | h_14 | h_15 | h_16 => simp only [Option.map_some, exec, execChkovf, execClamp, execWrap, execCvt, hd]
  case h_17 => simp only [Option.map_some, exec, execLookup, h, hd]
  case h_18 => rfl

/-- A command is its operation code, its bit and its selector, and of the selector only the canonical index has an effect. -/
theorem exec_eq_of_canon_eq {i j : Instr} (hop : i.opcode = j.opcode) (hv : i.bitValue = j.bitValue)
    (hc : canon i.tsel = canon j.tsel) (s : State) : exec i s = exec j s := by
  have h := exec_instrOfCode_congr hc i.opcode i.bitValue s
  rw [instrOfCode_of_fields i, hop, hv, instrOfCode_of_fields j] at h
  exact Option.some.inj h

/-- LOOKUP answers for every selector (R62): it has no operand to refuse. -/
theorem exec_lookup_eq (tsel : TypeSelector) (v : Bool) (s : State) :
    exec (.lookup tsel v) s =
      .next { s with response := some (.rd (BitVec.ofNat 3 (canon tsel).val) (BitVec.ofNat 7 (descriptor tsel).bits)
        (descriptor tsel).signed (descriptor tsel).min (descriptor tsel).max) } := rfl

/-- Settles O23, by the effect of the canonical index on the meaning of each operation code. -/
theorem unknownNamesAreInt32 : Obligations.UnknownNamesAreInt32 := by
  refine ⟨fun tsel => ⟨canon_of_known, fun h => ?_, rfl⟩, fun i j s hop hv hc => exec_eq_of_canon_eq hop hv hc s,
    fun tsel v s => ⟨_, exec_lookup_eq tsel v s⟩⟩
  rw [canon_of_unknown h]; rfl

end CanonicalIndex

end Sys2Proof.StateProofs

/-! What a command gets: a response, with everything else unchanged, or the refusal of the table of R107; and it depends on
the command alone (20_memory.md R36, R37, R42; 60_exceptions.md R107, R108, R109). -/

namespace Sys2Proof.MemoryProofs

open Sys2Proof.Machine Sys2Proof.Safety Sys2Proof.Laws Sys2Proof.StateProofs

section Settling

/-- A result is the refusal the table names or, where the table names none, a response on the ports of `s` with nothing else
changed. -/
inductive SettlesBy (s : State) : Option Refusal → Result → Prop where
  | refused (q : Refusal) : SettlesBy s (some q) (.refused q)
  | response (r : Response) : SettlesBy s none (respond s r)

theorem settlesBy_none_iff {s : State} {x : Result} : SettlesBy s none x ↔ ∃ r, x = respond s r :=
  ⟨fun | .response r => ⟨r, rfl⟩, fun ⟨r, h⟩ => h ▸ .response r⟩

theorem settlesBy_some_iff {s : State} {q : Refusal} {x : Result} : SettlesBy s (some q) x ↔ x = .refused q :=
  ⟨fun | .refused _ => rfl, fun h => h ▸ .refused q⟩

/-- The table's condition on an operand is the front end's own check, negated (R71, R107). -/
theorem outOfDomain_iff (B : Nat) (x : Int) : outOfDomain B x = true ↔ ¬InCoercionDomain B x := by
  simp only [outOfDomain, Bool.or_eq_true, decide_eq_true_eq]
  omega

variable {s : State} {q : Option Refusal} {k : Nat → Result}

/-- The operand check comes before all that the rest of the meaning checks (R109). -/
theorem settlesBy_withPattern (B : Nat) (a : Int) (h : ∀ u, SettlesBy s q (k u)) :
    SettlesBy s (if outOfDomain B a then some .operandOutOfDomain else q) (withPattern B a k) := by
  by_cases hd : InCoercionDomain B a
  · rw [withPattern_of_mem hd, if_neg (mt (outOfDomain_iff B a).1 (not_not.2 hd))]
    exact h _
  · rw [withPattern_of_not_mem hd, if_pos ((outOfDomain_iff B a).2 hd)]
    exact .refused _

theorem settlesBy_withCount (B : Nat) (n : Int) (h : ∀ c, SettlesBy s q (k c)) :
    SettlesBy s (if decide (n < 0) then some .negativeCount else q) (withCount B n k) := by
  by_cases hn : n < 0
  · rw [withCount_of_neg hn, if_pos (decide_eq_true hn)]
    exact .refused _
  · rw [withCount_of_nonneg (Int.not_lt.1 hn), if_neg (mt of_decide_eq_true hn)]
    exact h _

theorem settlesBy_withIndex (n : Int) (h : ∀ c, SettlesBy s q (k c)) :
    SettlesBy s (if decide (n < 0) then some .negativeCount else q) (withIndex n k) := by
  by_cases hn : n < 0
  · rw [withIndex_of_neg hn, if_pos (decide_eq_true hn)]
    exact .refused _
  · rw [withIndex_of_nonneg (Int.not_lt.1 hn), if_neg (mt of_decide_eq_true hn)]
    exact h _

end Settling

section Table

/-- The part of the table of R107 that speaks of operands: the rows below the two on the control word. -/
def operandRefusal (op B : Nat) (a b : Int) : Option Refusal :=
  if op ≤ 11 && outOfDomain B a then some .operandOutOfDomain
  else if op ≤ 2 && outOfDomain B b then some .operandOutOfDomain
  else if ((4 ≤ op && op ≤ 8) || op == 10 || op == 11) && decide (b < 0) then some .negativeCount
  else none

theorem firstRefusal_of_reserved {c : Command} (h : c.cw.toNat / 1024 ≠ 0) :
    firstRefusal c = some .reservedControlBits := if_pos (by omega)

theorem firstRefusal_of_undefined {c : Command} (h : c.cw.toNat / 1024 = 0) (hop : 17 ≤ opNumber c.cw) :
    firstRefusal c = some .invalidOperation := by
  rw [firstRefusal, if_neg (by omega), if_pos hop]

theorem firstRefusal_of_defined {c : Command} (h : c.cw.toNat / 1024 = 0) (hop : opNumber c.cw < 17) :
    firstRefusal c = operandRefusal (opNumber c.cw) (widthOf c.cw) c.a c.b := by
  rw [firstRefusal, if_neg (by omega), if_neg (Nat.not_le.2 hop), operandRefusal]

/-- The table's closed form of the width is the width of the descriptor the selector picks (R24, R26). -/
theorem widthOf_eq_descriptor_bits (w : ControlWord) : widthOf w = (descriptor (tselField w)).bits := by
  rw [descriptor, rom_bits_eq, widthOf, ← tselField_toNat]
  by_cases h : (tselField w).toNat ≤ 7
  · rw [canon_of_known h, if_pos h]
  · rw [canon_of_unknown (by omega), if_neg h]; rfl

/-- The table on a word that decodes, by the fields of the command it decodes to. -/
theorem firstRefusal_of_decode {s : State} {i : Instr} (h : decode s.cw = .command i) :
    firstRefusal (presented s) = operandRefusal i.opcode (descriptor i.tsel).bits s.a s.b := by
  obtain ⟨hrsv, hi⟩ := (decode_command_iff s.cw i).1 h
  obtain ⟨hop, htsel, -⟩ := instrOfCode_eq_some hi
  have hdef : s.cw.toNat % 32 < 17 := by
    by_contra hge
    rw [(instrOfCode_eq_none_iff _ _ _).2 (Nat.not_lt.1 hge)] at hi
    cases hi
  rw [firstRefusal_of_defined (c := presented s) hrsv hdef, hop, htsel, ← widthOf_eq_descriptor_bits]
  rfl

end Table

section Responds

/-- Every meaning settles by the operand rows of the table: the logic gates check both operands, NOT and POPCNT one, the
shifts, rotates and bit accesses one and the sign of the other, the registry none. -/
theorem exec_settlesBy (i : Instr) (s : State) :
    SettlesBy s (operandRefusal i.opcode (descriptor i.tsel).bits s.a s.b) (exec i s) := by
  cases i with
  | and t | or t | xor t =>
    exact settlesBy_withPattern _ _ fun _ => settlesBy_withPattern _ _ fun _ => .response _
  | not t | popcnt t => exact settlesBy_withPattern _ _ fun _ => .response _
  | shl t | shr t | ushr t | rol t | ror t =>
    exact settlesBy_withPattern _ _ fun _ => settlesBy_withCount (descriptor t).bits _ fun _ => .response _
  | getbit t | setbit t =>
    exact settlesBy_withPattern _ _ fun _ => settlesBy_withIndex _ fun _ => .response _
  | chkovf t | clamp t | wrap t | cvt t | lookup t => exact .response _

/-- A step settles by the whole table. -/
theorem step_settlesBy (s : State) : SettlesBy s (firstRefusal (presented s)) (step s) := by
  obtain ⟨i, hd, hs⟩ | ⟨r, hd, hs⟩ := step_cases s
  · rw [hs, firstRefusal_of_decode hd]
    exact exec_settlesBy i s
  · rw [hs]
    cases r with
    | reservedControlBits =>
      rw [firstRefusal_of_reserved (c := presented s) ((decode_reserved_iff s.cw).1 hd)]
      exact .refused _
    | invalidOperation =>
      obtain ⟨hrsv, hop⟩ := (decode_invalidOperation_iff s.cw).1 hd
      rw [firstRefusal_of_undefined (c := presented s) hrsv hop]
      exact .refused _

theorem safeState_iff (s : State) : SafeState s ↔ firstRefusal (presented s) = none := by
  rw [SafeState, dutyKept, beq_iff_eq]

theorem step_refused_of_firstRefusal {s : State} {q : Refusal} (h : firstRefusal (presented s) = some q) :
    step s = .refused q := settlesBy_some_iff.1 (h ▸ step_settlesBy s)

/-- The table decides between a response and a refusal: a state answers exactly when no row applies to its command. -/
theorem exists_answers_iff (s : State) : (∃ r, Answers s r) ↔ firstRefusal (presented s) = none := by
  refine ⟨fun ⟨r, hr⟩ => ?_, fun h => settlesBy_none_iff.1 (h ▸ step_settlesBy s)⟩
  refine Option.eq_none_iff_forall_ne_some.2 fun q hq => ?_
  cases hr.symm.trans (step_refused_of_firstRefusal hq)

/-- Settles O8: the step settles by the table of R107, and the host's duties say that no row of it applies. -/
theorem safeCommandsRespond : Obligations.SafeCommandsRespond := by
  refine fun s => ⟨(safeState_iff s).trans (exists_answers_iff s).symm, fun hnot => (exists_answers_iff s).2 ?_⟩
  exact Option.eq_none_iff_forall_ne_some.2 fun q hq => hnot q (step_refused_of_firstRefusal hq)

end Responds

section CommandAlone

@[simp] theorem reply_respond (s : State) (r : Response) : reply (respond s r) = .response (some r) := rfl

@[simp] theorem reply_withPattern (B : Nat) (a : Int) (k : Nat → Result) :
    reply (withPattern B a k) =
      if InCoercionDomain B a then reply (k (pattern B a)) else .refused .operandOutOfDomain :=
  apply_ite reply _ _ _

@[simp] theorem reply_withCount (B : Nat) (n : Int) (k : Nat → Result) :
    reply (withCount B n k) = if 0 ≤ n then reply (k (reduceCount B n)) else .refused .negativeCount :=
  apply_ite reply _ _ _

@[simp] theorem reply_withIndex (n : Int) (k : Nat → Result) :
    reply (withIndex n k) = if 0 ≤ n then reply (k n.toNat) else .refused .negativeCount :=
  apply_ite reply _ _ _

/-- A meaning reads the two operands and nothing else of the state: not the word, and not the response that was there. -/
theorem reply_exec_congr (i : Instr) {s t : State} (ha : s.a = t.a) (hb : s.b = t.b) :
    reply (exec i s) = reply (exec i t) := by
  cases i with
  | and | or | xor => simp only [exec, execAnd, execOr, execXor, logicGate, reply_withPattern, reply_respond, ha, hb]
  | not | popcnt => simp only [exec, execNot, execPopcnt, reply_withPattern, reply_respond, ha]
  | shl | shr | ushr =>
    simp only [exec, execShl, execShr, execUshr, reply_withPattern, reply_withCount, reply_respond, ha, hb]
  | rol | ror => simp only [exec, execRol, execRor, reply_withPattern, reply_withCount, reply_respond, ha, hb]
  | getbit | setbit =>
    simp only [exec, execGetbit, execSetbit, reply_withPattern, reply_withIndex, reply_respond, ha, hb]
  | chkovf | clamp | wrap | cvt =>
    simp only [exec, execChkovf, execClamp, execWrap, execCvt, reply_respond, ha]
  | lookup => rfl

/-- Settles O10: the same word decodes to the same command or is refused for the same reason, and a command's reply depends
on the operands alone. -/
theorem replyDependsOnCommandAlone : Obligations.ReplyDependsOnCommandAlone := by
  intro s t h
  obtain ⟨hcw, ha, hb⟩ := Command.mk.inj h
  simp only [step, fetch_eq_cw, hcw]
  cases decode t.cw with
  | command i => exact reply_exec_congr i ha hb
  | invalid r => rfl

end CommandAlone

end Sys2Proof.MemoryProofs

/-! The two kinds of word that spell no command, the response format of an operation, and the inputs an operation leaves
unread (30_encoding.md R45, R51, R52, R53). -/

namespace Sys2Proof.EncodingProofs

open Sys2Proof.Machine Sys2Proof.Safety Sys2Proof.Laws Sys2Proof.StateProofs Sys2Proof.MemoryProofs

section InvalidWords

theorem step_of_reserved {s : State} (h : s.cw.toNat / 1024 ≠ 0) : step s = .refused .reservedControlBits :=
  step_refused_of_firstRefusal (firstRefusal_of_reserved (c := presented s) h)

theorem step_of_undefined {s : State} (h : s.cw.toNat / 1024 = 0) (hop : 17 ≤ s.cw.toNat % 32) :
    step s = .refused .invalidOperation :=
  step_refused_of_firstRefusal (firstRefusal_of_undefined (c := presented s) h hop)

/-- Settles O3: the decoder's two invalid answers, and the rows of the table of R107 they are. -/
theorem invalidWordsRefused : Obligations.InvalidWordsRefused := by
  intro w
  refine ⟨decode_reserved_iff w, ?_, ?_, ?_⟩
  · have hop : w.toNat % 32 ≤ 31 := by omega
    simp only [decode_invalidOperation_iff, hop, and_true]
  · rintro s rfl h
    exact step_of_reserved h
  · rintro s rfl h hop
    exact step_of_undefined h hop

end InvalidWords

section AnswersInFormat

/-- A result that is a next state has a response of format `F`. -/
def AnswersIn (F : Format) (x : Result) : Prop :=
  ∀ t, x = .next t → ∃ r, t.response = some r ∧ responseFormat r = F

theorem answersIn_respond (s : State) (r : Response) : AnswersIn (responseFormat r) (respond s r) :=
  fun _ h => ⟨r, by rw [respond_next h], rfl⟩

variable {F : Format} {k : Nat → Result}

theorem answersIn_withPattern (B : Nat) (a : Int) (h : ∀ u, AnswersIn F (k u)) : AnswersIn F (withPattern B a k) :=
  fun t ht => h _ t (withPattern_next ht).2

theorem answersIn_withCount (B : Nat) (n : Int) (h : ∀ c, AnswersIn F (k c)) : AnswersIn F (withCount B n k) :=
  fun t ht => h _ t (withCount_next ht).2

theorem answersIn_withIndex (n : Int) (h : ∀ c, AnswersIn F (k c)) : AnswersIn F (withIndex n k) :=
  fun t ht => h _ t (withIndex_next ht).2

end AnswersInFormat

section Formats

/-- The checks on the operands come first and have no say in the format; what a meaning then responds has the format of its
operation (R53). -/
theorem exec_answersIn (i : Instr) (s : State) : AnswersIn (formatOf i) (exec i s) := by
  cases i with
  | and t | or t | xor t =>
    exact answersIn_withPattern _ _ fun _ => answersIn_withPattern _ _ fun _ => answersIn_respond s (.rv _)
  | not t | popcnt t => exact answersIn_withPattern _ _ fun _ => answersIn_respond s (.rv _)
  | shl t | shr t | ushr t | rol t | ror t =>
    exact answersIn_withPattern _ _ fun _ => answersIn_withCount (descriptor t).bits _ fun _ => answersIn_respond s (.rv _)
  | getbit t | setbit t =>
    exact answersIn_withPattern _ _ fun _ => answersIn_withIndex _ fun _ => answersIn_respond s (.rv _)
  | clamp t | wrap t | cvt t => exact answersIn_respond s (.rv _)
  | chkovf t => exact answersIn_respond s (.ro _ _ _ _)
  | lookup t => exact answersIn_respond s (.rd _ _ _ _ _)

/-- A response shows exactly the ports that R53's table lists for its format (R45). -/
theorem onPort_isSome_eq (vw : Nat) (r : Response) (p : Port) :
    (r.onPort vw p).isSome = decide (p ∈ portsOf (responseFormat r)) := by
  cases r with
  | rv y => cases p <;> rfl
  | ro ovf value wrapped orig => cases p <;> rfl
  | rd tcode bits signed min max => cases p <;> rfl

/-- Settles O12: the format by the operation's own response, the ports by the format. -/
theorem formatFixedByOp : Obligations.FormatFixedByOp := by
  refine ⟨fun vw i s t h => ?_, fun _ _ => rfl, fun _ _ _ _ _ => ⟨rfl, rfl, rfl, rfl⟩,
    fun _ _ _ _ _ _ => ⟨rfl, rfl, rfl, rfl, rfl⟩⟩
  obtain ⟨r, hr, hF⟩ := exec_answersIn i s t h
  exact ⟨r, hr, hF, fun p => by rw [onPort_isSome_eq, hF, decide_eq_true_iff]⟩

end Formats

section UnusedInputs

/-- The operations for which R48's table marks `B` unused (R51). -/
def ignoresB : Instr → Bool
  | .not _ _ | .popcnt _ _ | .chkovf _ _ | .clamp _ _ | .wrap _ _ | .cvt _ _ | .lookup _ _ => true
  | _ => false

/-- What `B` holds has no effect on such an operation's reply, whether that is a response or a refusal. -/
theorem reply_exec_set_b {i : Instr} (h : ignoresB i = true) (s : State) (n : Int) :
    reply (exec i s) = reply (exec i { s with b := n }) := by
  cases i with
  | not | popcnt => simp only [exec, execNot, execPopcnt, reply_withPattern, reply_respond]
  | chkovf | clamp | wrap | cvt | lookup => rfl
  | _ => cases h

/-- LOOKUP reads neither operand (R62). -/
theorem reply_exec_lookup_set_operands (tsel : TypeSelector) (v : Bool) (s : State) (m n : Int) :
    reply (exec (.lookup tsel v) s) = reply (exec (.lookup tsel v) { s with a := m, b := n }) := by
  simp only [exec_lookup_eq, reply]

/-- All that the assembler can emit (R56): the bit is the third operand of a SETBIT line and 0 on every other line. -/
theorem assemble_cases {l : AsmLine} {c : Command} (h : l.assemble = some c) :
    (l.form = .twoOperands ∧ ∃ a b, l.operands = [a, b] ∧ c = ⟨controlWordOf l.op l.tsel false, a, b⟩) ∨
    (l.form = .oneOperand ∧ ∃ a, l.operands = [a] ∧ c = ⟨controlWordOf l.op l.tsel false, a, 0⟩) ∨
    (l.form = .setbitOperands ∧ ∃ a n, ∃ v : Bool, l.operands = [a, n, (v.toNat : Int)] ∧
      c = ⟨controlWordOf l.op l.tsel v, a, n⟩) ∨
    (l.form = .noOperands ∧ l.operands = [] ∧ c = ⟨controlWordOf l.op l.tsel false, 0, 0⟩) := by
  unfold AsmLine.assemble at h
  split at h
  case h_1 a b hf ho => exact .inl ⟨hf, a, b, ho, (Option.some.inj h).symm⟩
  case h_2 a hf ho => exact .inr (.inl ⟨hf, a, ho, (Option.some.inj h).symm⟩)
  case h_3 a n v hf ho =>
    refine .inr (.inr (.inl ⟨hf, a, n, ?_⟩))
    split_ifs at h with h0 h1
    · exact ⟨false, by rw [ho, h0]; rfl, (Option.some.inj h).symm⟩
    · exact ⟨true, by rw [ho, h1]; rfl, (Option.some.inj h).symm⟩
  case h_4 hf ho => exact .inr (.inr (.inr ⟨hf, ho, (Option.some.inj h).symm⟩))
  case h_5 => cases h

theorem vField_controlWordOf {op : Nat} (h : op ≤ 16) (tsel : TypeSelector) (v : Bool) :
    vField (controlWordOf op tsel v) = v := by
  obtain ⟨-, -, hv, -⟩ := ControlWordFields.fields_of_controlWord ⟨op, by omega⟩ tsel v
  exact hv

/-- Settles O17: the arm of every operation but SETBIT drops `v`; the operands by what a meaning reads; the assembler by the
lines it can emit. -/
theorem unusedInputsIgnored : Obligations.UnusedInputsIgnored := by
  refine ⟨fun t v w s n => ?_, fun t v w s m n => reply_exec_lookup_set_operands t w s m n,
    fun t v w s => ⟨rfl, rfl, rfl, rfl, rfl, rfl, rfl, rfl, rfl⟩, fun l c hop h => ?_⟩
  · have hB {i : Instr} (hi : ignoresB i = true) := reply_exec_set_b hi s n
    exact ⟨hB (i := .not t w) rfl, hB (i := .popcnt t w) rfl, hB (i := .chkovf t w) rfl, hB (i := .clamp t w) rfl,
      hB (i := .wrap t w) rfl, hB (i := .cvt t w) rfl⟩
  · have hv := vField_controlWordOf hop l.tsel false
    obtain ⟨hf, a, b, -, rfl⟩ | ⟨hf, a, -, rfl⟩ | ⟨hf, a, n, v, -, rfl⟩ | ⟨hf, -, rfl⟩ := assemble_cases h <;>
      simp [hf, hv]

end UnusedInputs

end Sys2Proof.EncodingProofs

/-! What the registry answers: the descriptor, the overflow record, the saturated value and the wrapped one
(40_registry_policy.md R62, R63, R64, R65). -/

namespace Sys2Proof.RegistryProofs

open Sys2Proof.Machine Sys2Proof.Safety Sys2Proof.Laws Sys2Proof.StateProofs

section Interval

theorem descriptor_min_le_max (tsel : TypeSelector) : (descriptor tsel).min ≤ (descriptor tsel).max := by
  have hr := descriptor_range tsel
  have hp := two_pow_pos (descriptor tsel).bits
  omega

/-- The wrap formula's result is the one member of the interval congruent to the value (R17). -/
theorem eq_wrapInto_iff {lo hi : Int} (h : lo ≤ hi) (v y : Int) :
    y = wrapInto v lo hi ↔ lo ≤ y ∧ y ≤ hi ∧ ∃ q : Int, v = y + q * (hi - lo + 1) := by
  constructor
  · rintro rfl
    obtain ⟨hlo, hhi⟩ := wrapInto_mem h v
    refine ⟨hlo, hhi, (v - lo) / (hi - lo + 1), ?_⟩
    have hdiv := Int.emod_add_ediv_mul (v - lo) (hi - lo + 1)
    unfold wrapInto
    omega
  · rintro ⟨hlo, hhi, q, rfl⟩
    have hsub : y + q * (hi - lo + 1) - lo = y - lo + q * (hi - lo + 1) := by omega
    rw [wrapInto, hsub, Int.add_mul_emod_self_right, Int.emod_eq_of_lt (by omega) (by omega)]
    omega

end Interval

section Policy

variable {d : Descriptor} {a : Int}

theorem saturate_of_lt_min (h : a < d.min) : saturate d a = d.min := if_pos (decide_eq_true h)

/-- `MAX` above: on an interval that is not empty the lower comparator is then off. -/
theorem saturate_of_max_lt (hd : d.min ≤ d.max) (h : d.max < a) : saturate d a = d.max := by
  have hlo : ¬a < d.min := by omega
  rw [saturate, belowMin, aboveMax, if_neg (mt of_decide_eq_true hlo), if_pos (decide_eq_true h)]

theorem overflow_eq_false (hlo : d.min ≤ a) (hhi : a ≤ d.max) : overflow d a = false := by
  rw [← Bool.not_eq_true, overflow_iff]
  omega

theorem policyValue_of_mem (hlo : d.min ≤ a) (hhi : a ≤ d.max) : policyValue d a = a := by
  simp [policyValue, overflow_eq_false hlo hhi]

/-- A signed type saturates (R63). -/
theorem policyValue_of_signed (hs : d.signed = true) (h : overflow d a = true) : policyValue d a = saturate d a := by
  rw [policyValue, if_pos h, if_pos hs]

/-- An unsigned type wraps (R63). -/
theorem policyValue_of_unsigned (hs : d.signed = false) (h : overflow d a = true) :
    policyValue d a = wrapInto a d.min d.max := by
  simp [policyValue, h, hs]

end Policy

section Responses

/-- The record of CHKOVF, the wrapped value by the width (R25, R63). -/
theorem exec_chkovf_eq (tsel : TypeSelector) (v : Bool) (s : State) :
    exec (.chkovf tsel v) s =
      .next { s with response := some (.ro (overflow (descriptor tsel) s.a) (policyValue (descriptor tsel) s.a)
        ((s.a - (descriptor tsel).min) % (2 : Int) ^ (descriptor tsel).bits + (descriptor tsel).min) s.a) } := by
  rw [← wrapInto_descriptor]; rfl

theorem exec_clamp_eq (tsel : TypeSelector) (v : Bool) (s : State) :
    exec (.clamp tsel v) s = .next { s with response := some (.rv (saturate (descriptor tsel) s.a)) } := rfl

theorem exec_wrap_eq (tsel : TypeSelector) (v : Bool) (s : State) :
    exec (.wrap tsel v) s =
      .next { s with response := some (.rv (wrapInto s.a (descriptor tsel).min (descriptor tsel).max)) } := rfl

/-- Two responses on port `Y` to the same inputs agree exactly when their values do. -/
theorem next_rv_inj {s : State} {x y : Int} :
    (Host.Outcome.next { s with response := some (.rv x) } : Result) = .next { s with response := some (.rv y) } ↔ y = x := by
  simp [eq_comm]

/-- Settles O26, by the three cases of the saturation. -/
theorem clampResponds : Obligations.ClampResponds := by
  intro tsel v s
  refine ⟨rfl, fun h => ?_, fun h => ?_, fun hlo hhi => ?_⟩
  · rw [exec_clamp_eq, saturate_of_lt_min h]
  · rw [exec_clamp_eq, saturate_of_max_lt (descriptor_min_le_max tsel) h]
  · rw [exec_clamp_eq, saturate_of_mem hlo hhi]

/-- Settles O25: the record's flag and value in range, below and above for a signed type, and outside for an unsigned one. -/
theorem chkovfResponds : Obligations.ChkovfResponds := by
  intro tsel v s
  refine ⟨rfl, fun hlo hhi => ?_, fun hs h => ?_, fun hs h => ?_, fun hs h => ?_⟩
  · rw [exec_chkovf_eq, overflow_eq_false hlo hhi, policyValue_of_mem hlo hhi]
  · have hovf := (overflow_iff (descriptor tsel) s.a).2 (.inl h)
    rw [exec_chkovf_eq, hovf, policyValue_of_signed hs hovf, saturate_of_lt_min h]
  · have hovf := (overflow_iff (descriptor tsel) s.a).2 (.inr h)
    rw [exec_chkovf_eq, hovf, policyValue_of_signed hs hovf, saturate_of_max_lt (descriptor_min_le_max tsel) h]
  · have hovf := (overflow_iff (descriptor tsel) s.a).2 h
    rw [exec_chkovf_eq, hovf, policyValue_of_unsigned hs hovf, wrapInto_descriptor]

/-- Settles O27: the value by the formula, and its uniqueness from the interval's having `2^B` members. -/
theorem wrapResponds : Obligations.WrapResponds := by
  intro tsel v s
  refine ⟨rfl, ?_, fun y => ?_⟩
  · rw [exec_wrap_eq, wrapInto_descriptor]
  · rw [exec_wrap_eq, next_rv_inj, eq_wrapInto_iff (descriptor_min_le_max tsel), descriptor_range]

end Responses

section Lookup

/-- The canonical index as a number: the selector of a known name, else INT32's (R26). -/
theorem canon_val_eq (tsel : TypeSelector) : (canon tsel).val = if tsel.toNat ≤ 7 then tsel.toNat else 4 := by
  split
  case isTrue h => exact canon_of_known h
  case isFalse h => rw [canon_of_unknown (by omega)]; rfl

theorem rom_signed_eq (t : Fin 8) : (rom t).signed = (t.val % 2 == 0) :=
  Bool.eq_iff_iff.2 ((rom_signed_iff t).trans beq_iff_eq.symm)

/-- Settles O24: the descriptor is the row of the canonical index, and each field of a row has R24's closed form. -/
theorem lookupResponds : Obligations.LookupResponds := by
  intro tsel v s
  refine ⟨rfl, ?_⟩
  rw [exec_lookup_eq, descriptor_min, descriptor_max, descriptor, rom_signed_eq, rom_bits_eq, canon_val_eq]
  simp only [beq_iff_eq]

end Lookup

end Sys2Proof.RegistryProofs

/-! What the logic gates answer: the gate on the two patterns, and the complement read as the type; both refuse an operand
outside the coercion domain (41_engine_logic.md R70 to R75). -/

namespace Sys2Proof.LogicProofs

open Sys2Proof.Machine Sys2Proof.Safety Sys2Proof.Laws

section Gates

/-- The mask after a gate changes nothing on `C(B)`: a gate that stays within the width answers the gate of the patterns
(R70, R72 to R74). -/
theorem logicGate_of_closed {gate : Nat → Nat → Nat} {tsel : TypeSelector} {s : State}
    (hgate : ∀ {x y}, x < 2 ^ (descriptor tsel).bits → y < 2 ^ (descriptor tsel).bits →
      gate x y < 2 ^ (descriptor tsel).bits)
    (ha : InCoercionDomain (descriptor tsel).bits s.a) (hb : InCoercionDomain (descriptor tsel).bits s.b) :
    logicGate gate tsel s =
        respond s (.rv (gate (patternOf (descriptor tsel).bits s.a) (patternOf (descriptor tsel).bits s.b) : Nat)) ∧
      gate (patternOf (descriptor tsel).bits s.a) (patternOf (descriptor tsel).bits s.b) ≤
        2 ^ (descriptor tsel).bits - 1 := by
  have hlt := hgate (patternOf_lt (descriptor tsel).bits s.a) (patternOf_lt (descriptor tsel).bits s.b)
  refine ⟨?_, Nat.le_sub_one_of_lt hlt⟩
  rw [logicGate_of_mem ha hb, Nat.mod_eq_of_lt hlt]

/-- Settles O30: AND is the gate `&&&`, which sets no bit that its second operand lacks. -/
theorem andResponds : Obligations.AndResponds := fun _ _ _ =>
  ⟨rfl, logicGate_of_closed fun _ hy => Nat.and_lt_two_pow _ hy, logicGate_of_not_mem⟩

/-- Settles O31: OR is the gate `|||`, which sets no bit that both operands lack. -/
theorem orResponds : Obligations.OrResponds := fun _ _ _ =>
  ⟨rfl, logicGate_of_closed Nat.or_lt_two_pow, logicGate_of_not_mem⟩

/-- Settles O32: XOR is the gate `^^^`, which sets no bit that both operands lack. -/
theorem xorResponds : Obligations.XorResponds := fun _ _ _ =>
  ⟨rfl, logicGate_of_closed Nat.xor_lt_two_pow, logicGate_of_not_mem⟩

end Gates

section Complement

theorem execNot_of_mem {tsel : TypeSelector} {s : State} (ha : InCoercionDomain (descriptor tsel).bits s.a) :
    execNot tsel s =
      respond s (.rv (readAs (descriptor tsel).signed (descriptor tsel).bits
        (2 ^ (descriptor tsel).bits - 1 - patternOf (descriptor tsel).bits s.a))) := by
  rw [execNot, withPattern_of_mem ha, finish_eq_readAs, Nat.mod_eq_of_lt (complement_lt _ _), complement, maskValue]

theorem execNot_of_not_mem {tsel : TypeSelector} {s : State} (ha : ¬InCoercionDomain (descriptor tsel).bits s.a) :
    execNot tsel s = .refused .operandOutOfDomain := by
  rw [execNot, withPattern_of_not_mem ha]

/-- Settles O33: the complement of a pattern is within the width, so the back end only reads it as the type (R75). -/
theorem notResponds : Obligations.NotResponds := fun _ _ _ =>
  ⟨rfl, execNot_of_mem, execNot_of_not_mem⟩

end Complement

end Sys2Proof.LogicProofs

/-! What the shifts answer: the shifted pattern for the reduced count, and the refusals of an operand outside the coercion
domain and of a negative count, which the rotates share (42_engine_shift.md R78 to R81). -/

namespace Sys2Proof.ShiftProofs

open Sys2Proof.Machine Sys2Proof.Safety Sys2Proof.Laws Sys2Proof.MemoryProofs

section Counted

/-- The shape of the five shifts and rotates: the operand's check, then the count's, then a value of the pattern and the reduced
count on port `Y` (R71, R78, R109). -/
def counted (value : Nat → Nat → Int) (tsel : TypeSelector) (s : State) : Result :=
  withPattern (descriptor tsel).bits s.a fun ua =>
    withCount (descriptor tsel).bits s.b fun k => respond s (.rv (value ua k))

theorem exec_shl_eq_counted (tsel : TypeSelector) (v : Bool) (s : State) :
    exec (.shl tsel v) s =
      counted (fun ua k => finish (descriptor tsel).bits (ua <<< k) (descriptor tsel).signed) tsel s := rfl

/-- The one shape whose value reads port `A` beside the pattern: SHR tests the sign of the value (R80). -/
theorem exec_shr_eq_counted (tsel : TypeSelector) (v : Bool) (s : State) :
    exec (.shr tsel v) s = counted (shiftRight (descriptor tsel) s.a) tsel s := rfl

theorem exec_ushr_eq_counted (tsel : TypeSelector) (v : Bool) (s : State) :
    exec (.ushr tsel v) s = counted (fun ua k => (ua >>> k : Nat)) tsel s := rfl

theorem exec_rol_eq_counted (tsel : TypeSelector) (v : Bool) (s : State) :
    exec (.rol tsel v) s = counted (fun ua k => rotateLeft (descriptor tsel).bits k ua) tsel s := rfl

theorem exec_ror_eq_counted (tsel : TypeSelector) (v : Bool) (s : State) :
    exec (.ror tsel v) s = counted (fun ua k => rotateRight (descriptor tsel).bits k ua) tsel s := rfl

variable {value : Nat → Nat → Int} {tsel : TypeSelector} {s : State}

theorem counted_of_mem (ha : InCoercionDomain (descriptor tsel).bits s.a) (hb : 0 ≤ s.b) :
    counted value tsel s =
      respond s (.rv (value (patternOf (descriptor tsel).bits s.a) (s.b % ((descriptor tsel).bits : Int)).toNat)) := by
  rw [counted, withPattern_of_mem ha, withCount_of_nonneg hb]

theorem counted_of_not_mem (ha : ¬InCoercionDomain (descriptor tsel).bits s.a) :
    counted value tsel s = .refused .operandOutOfDomain := withPattern_of_not_mem ha _

theorem counted_of_neg (ha : InCoercionDomain (descriptor tsel).bits s.a) (hb : s.b < 0) :
    counted value tsel s = .refused .negativeCount := by
  rw [counted, withPattern_of_mem ha, withCount_of_neg hb]

/-- The count has an effect through its remainder only (R78). The operand may lie outside `C(B)`: the refusal is then the same. -/
theorem reply_counted_set_b {n : Int} (hb : 0 ≤ s.b) (hn : 0 ≤ n)
    (h : n % ((descriptor tsel).bits : Int) = s.b % ((descriptor tsel).bits : Int)) :
    reply (counted value tsel { s with b := n }) = reply (counted value tsel s) := by
  simp only [counted, reply_withPattern, reply_withCount, reply_respond, if_pos hb, if_pos hn, reduceCount, h]

end Counted

section Counts

/-- The five commands with a count are of the counted shape, with a value that reads no more of the state than port `A`. -/
theorem exists_exec_eq_counted {tsel : TypeSelector} {v : Bool} {i : Instr}
    (h : i = .shl tsel v ∨ i = .shr tsel v ∨ i = .ushr tsel v ∨ i = .rol tsel v ∨ i = .ror tsel v) :
    ∃ value : Int → Nat → Nat → Int, ∀ s, exec i s = counted (value s.a) tsel s := by
  obtain rfl | rfl | rfl | rfl | rfl := h
  · exact ⟨fun _ => _, exec_shl_eq_counted tsel v⟩
  · exact ⟨_, exec_shr_eq_counted tsel v⟩
  · exact ⟨fun _ => _, exec_ushr_eq_counted tsel v⟩
  · exact ⟨fun _ => _, exec_rol_eq_counted tsel v⟩
  · exact ⟨fun _ => _, exec_ror_eq_counted tsel v⟩

/-- Settles O36: `n + B` and `n emod B` are not negative and have the remainder of `n`. -/
theorem countsReduceModuloWidth : Obligations.CountsReduceModuloWidth := by
  intro tsel v s i hi
  obtain ⟨value, hexec⟩ := exists_exec_eq_counted hi
  have hB := descriptor_bits_pos tsel
  simp only [hexec]
  refine ⟨counted_of_neg, fun hb => ?_, fun hb => ?_⟩
  · exact reply_counted_set_b hb (by omega) (Int.add_emod_right ..)
  · exact reply_counted_set_b hb (Int.emod_nonneg _ (by omega)) (Int.emod_emod ..)

end Counts

section ShiftedValues

/-- The arithmetic path: `k` ones enter at the top, whatever the pattern's top bit is (R80). -/
theorem shiftRight_of_arithmetic {d : Descriptor} {a : Int} (hs : d.signed = true) (ha : a < 0) (ua k : Nat) :
    shiftRight d a ua k = readAs true d.bits ((ua / 2 ^ k ||| (2 ^ k - 1) * 2 ^ (d.bits - k)) % 2 ^ d.bits) := by
  rw [shiftRight, if_pos (by simp [hs, ha]), signExtend_eq_readAs, maskTo_eq_mod, signFill_eq, Nat.shiftRight_eq_div_pow]

/-- The logical path: zeros enter at the top, and a signed type still reads the result as signed (R80). -/
theorem shiftRight_of_logical {d : Descriptor} {a : Int} (h : d.signed = false ∨ 0 ≤ a) (ua k : Nat) :
    shiftRight d a ua k = readAs d.signed d.bits (ua / 2 ^ k % 2 ^ d.bits) := by
  have hpath : ¬(d.signed && decide (a < 0)) = true := by
    obtain hs | ha := h
    · simp [hs]
    · simp [ha]
  rw [shiftRight, if_neg hpath, finish_eq_readAs, Nat.shiftRight_eq_div_pow]

/-- A pattern shifted right by at most its width keeps `B - k` bits (R81). -/
theorem div_two_pow_lt {B k u : Nat} (hk : k ≤ B) (hu : u < 2 ^ B) : u / 2 ^ k < 2 ^ (B - k) :=
  Nat.div_lt_of_lt_mul (by rwa [← pow_add, Nat.add_sub_cancel' hk])

end ShiftedValues

section Responses

/-- Settles O37: the back end masks the shifted pattern and reads it as the type. -/
theorem shlResponds : Obligations.ShlResponds := by
  intro tsel v s
  simp only [exec_shl_eq_counted]
  refine ⟨rfl, fun ha hb => ?_, counted_of_not_mem, counted_of_neg⟩
  rw [counted_of_mem ha hb, finish_eq_readAs, Nat.shiftLeft_eq, respond]

/-- Settles O38, by the two paths of the shift. -/
theorem shrResponds : Obligations.ShrResponds := by
  intro tsel v s
  simp only [exec_shr_eq_counted]
  refine ⟨rfl, fun ha hb hs hneg => ?_, fun ha hb hlog => ?_, counted_of_not_mem, counted_of_neg⟩
  · rw [counted_of_mem ha hb, shiftRight_of_arithmetic hs hneg, respond]
  · rw [counted_of_mem ha hb, shiftRight_of_logical hlog, respond]

/-- Settles O39: no mask is needed, since shifting a pattern right by a count below the width leaves `B - k` bits. -/
theorem ushrResponds : Obligations.UshrResponds := by
  intro tsel v s
  simp only [exec_ushr_eq_counted]
  refine ⟨rfl, fun ha hb => ⟨?_, ?_⟩, counted_of_not_mem, counted_of_neg⟩
  · rw [counted_of_mem ha hb, Nat.shiftRight_eq_div_pow, respond]
  · exact Nat.le_sub_one_of_lt (div_two_pow_lt (reducedCount_lt tsel s.b).le (patternOf_lt _ _))

end Responses

end Sys2Proof.ShiftProofs

/-! What the rotates answer: the pattern cut in two by the reduced count and the parts exchanged, with the refusals of the
counted shape (43_engine_rotate.md R85, R86). -/

namespace Sys2Proof.RotateProofs

open Sys2Proof.Machine Sys2Proof.Safety Sys2Proof.Laws Sys2Proof.ShiftProofs

section RotatedValues

variable {B k u : Nat}

/-- The part that wraps around fits in the `k` low bits. -/
theorem rotate_lower_part_lt (hk : k ≤ B) (hu : u < 2 ^ B) : u / 2 ^ (B - k) < 2 ^ k := by
  have h := div_two_pow_lt (Nat.sub_le B k) hu
  rwa [Nat.sub_sub_self hk] at h

/-- The upper part is a multiple of `2^k` and the lower one is below `2^k`, so OR adds them. -/
theorem rotate_parts_or_eq_add (hk : k ≤ B) (hu : u < 2 ^ B) :
    u * 2 ^ k % 2 ^ B ||| u / 2 ^ (B - k) = u * 2 ^ k % 2 ^ B + u / 2 ^ (B - k) := by
  rw [rotate_upper_part hk, Nat.mul_comm, Nat.two_pow_add_eq_or_of_lt (rotate_lower_part_lt hk hu)]

/-- ROL's value in numbers (R85): both parts are within the width, so the last mask keeps their sum. -/
theorem rotateLeft_eq_add (hk : k ≤ B) (hu : u < 2 ^ B) :
    rotateLeft B k u = u * 2 ^ k % 2 ^ B + u / 2 ^ (B - k) := by
  have hupper : u * 2 ^ k % 2 ^ B < 2 ^ B := Nat.mod_lt _ (Nat.two_pow_pos B)
  have hlower : u / 2 ^ (B - k) < 2 ^ B := (Nat.div_le_self ..).trans_lt hu
  rw [rotateLeft, maskTo_eq_mod, maskValue, Nat.and_two_pow_sub_one_eq_mod, Nat.shiftLeft_eq, Nat.shiftRight_eq_div_pow,
    Nat.mod_eq_of_lt (Nat.or_lt_two_pow hupper hlower), rotate_parts_or_eq_add hk hu]

/-- ROR's value in numbers (R86), by ROL's for the count `B - k`. -/
theorem rotateRight_eq_add (hk : k ≤ B) (hu : u < 2 ^ B) :
    rotateRight B k u = u / 2 ^ k + u * 2 ^ (B - k) % 2 ^ B := by
  rw [rotateRight_eq_rotateLeft hk, rotateLeft_eq_add (Nat.sub_le B k) hu, Nat.sub_sub_self hk, Nat.add_comm]

theorem rotateRight_lt (hk : k ≤ B) (u : Nat) : rotateRight B k u < 2 ^ B := by
  rw [rotateRight_eq_rotateLeft hk]
  exact rotateLeft_lt B (B - k) u

end RotatedValues

section Responses

/-- Settles O42: ROL is of the counted shape, its value the sum of the two exchanged parts. -/
theorem rolResponds : Obligations.RolResponds := by
  intro tsel v s
  have hk := (reducedCount_lt tsel s.b).le
  have hu := patternOf_lt (descriptor tsel).bits s.a
  simp only [exec_rol_eq_counted, ← rotateLeft_eq_add hk hu]
  exact ⟨rfl, fun ha hb => ⟨counted_of_mem ha hb, Nat.le_sub_one_of_lt (rotateLeft_lt ..)⟩, counted_of_not_mem, counted_of_neg⟩

/-- Settles O43: ROR is of the counted shape, its value the sum of the two exchanged parts. -/
theorem rorResponds : Obligations.RorResponds := by
  intro tsel v s
  have hk := (reducedCount_lt tsel s.b).le
  have hu := patternOf_lt (descriptor tsel).bits s.a
  simp only [exec_ror_eq_counted, ← rotateRight_eq_add hk hu]
  exact ⟨rfl, fun ha hb => ⟨counted_of_mem ha hb, Nat.le_sub_one_of_lt (rotateRight_lt hk _)⟩, counted_of_not_mem,
    counted_of_neg⟩

end Responses

end Sys2Proof.RotateProofs

/-! What the bit commands answer: the population count, one bit of the pattern, and the pattern with one bit written; the index
is not reduced, and a negative one is refused (44_engine_bits.md R90 to R93). -/

namespace Sys2Proof.BitsProofs

open Sys2Proof.Machine Sys2Proof.Safety Sys2Proof.Laws

section PopulationCount

/-- The counter adds up the bits of the positions it examines, so it counts the positions with a 1 (R91). -/
theorem popCount_eq_length_filter (B ua : Nat) :
    popCount B ua = ((List.range B).filter fun i => ua.testBit i).length := by
  unfold popCount
  induction List.range B with
  | nil => rfl
  | cons i positions ih =>
    rw [List.map_cons, List.sum_cons, ih, bitAt_eq_testBit]
    cases hbit : ua.testBit i
    · rw [List.filter_cons_of_neg (by simp [hbit]), Bool.toNat_false, Nat.zero_add]
    · rw [List.filter_cons_of_pos hbit, List.length_cons, Bool.toNat_true, Nat.add_comm]

theorem length_filter_range_le (B : Nat) (p : Nat → Bool) : ((List.range B).filter p).length ≤ B := by
  simpa using List.length_filter_le p (List.range B)

variable {tsel : TypeSelector} {s : State}

theorem execPopcnt_of_mem (ha : InCoercionDomain (descriptor tsel).bits s.a) :
    execPopcnt tsel s =
      respond s (.rv (((List.range (descriptor tsel).bits).filter fun i =>
        (patternOf (descriptor tsel).bits s.a).testBit i).length : Nat)) := by
  rw [execPopcnt, withPattern_of_mem ha, popCount_eq_length_filter]

theorem execPopcnt_of_not_mem (ha : ¬InCoercionDomain (descriptor tsel).bits s.a) :
    execPopcnt tsel s = .refused .operandOutOfDomain := by
  rw [execPopcnt, withPattern_of_not_mem ha]

end PopulationCount

section Indexed

/-- The shape of GETBIT and SETBIT: the operand's check, then the index's, then a value of the pattern and the index as it stands
on port `Y` (R71, R90, R109). -/
def indexed (value : Nat → Nat → Int) (tsel : TypeSelector) (s : State) : Result :=
  withPattern (descriptor tsel).bits s.a fun ua => withIndex s.b fun index => respond s (.rv (value ua index))

theorem exec_getbit_eq_indexed (tsel : TypeSelector) (v : Bool) (s : State) :
    exec (.getbit tsel v) s = indexed (fun ua index => bitAt ua index) tsel s := rfl

theorem exec_setbit_eq_indexed (tsel : TypeSelector) (v : Bool) (s : State) :
    exec (.setbit tsel v) s =
      indexed (fun ua index =>
        finish (descriptor tsel).bits (writeBit (descriptor tsel).bits ua index v) (descriptor tsel).signed) tsel s := rfl

variable {value : Nat → Nat → Int} {tsel : TypeSelector} {s : State}

theorem indexed_of_mem (ha : InCoercionDomain (descriptor tsel).bits s.a) (hb : 0 ≤ s.b) :
    indexed value tsel s = respond s (.rv (value (patternOf (descriptor tsel).bits s.a) s.b.toNat)) := by
  rw [indexed, withPattern_of_mem ha, withIndex_of_nonneg hb]

theorem indexed_of_not_mem (ha : ¬InCoercionDomain (descriptor tsel).bits s.a) :
    indexed value tsel s = .refused .operandOutOfDomain := withPattern_of_not_mem ha _

theorem indexed_of_neg (ha : InCoercionDomain (descriptor tsel).bits s.a) (hb : s.b < 0) :
    indexed value tsel s = .refused .negativeCount := by
  rw [indexed, withPattern_of_mem ha, withIndex_of_neg hb]

end Indexed

section WrittenBit

/-- The back end's mask changes nothing: a written bit lies within the width (R93). -/
theorem finish_writeBit {B ua : Nat} (hB : 1 ≤ B) (hu : ua < 2 ^ B) (index : Nat) (v signed : Bool) :
    finish B (writeBit B ua index v) signed = readAs signed B (writeBit B ua index v) := by
  rw [finish_eq_readAs, Nat.mod_eq_of_lt (writeBit_lt hB hu v)]

/-- The bits of the written pattern, by the index as the port carries it. -/
theorem testBit_writeBit_toNat {B : Nat} {n : Int} (h0 : 0 ≤ n) (hn : n ≤ (B : Int) - 1) (ua : Nat) (v : Bool) (j : Nat) :
    (writeBit B ua n.toNat v).testBit j = if (j : Int) = n then v else ua.testBit j := by
  have hindex : n.toNat < B := by omega
  have heq : j = n.toNat ↔ (j : Int) = n := by omega
  rw [testBit_writeBit hindex, if_congr heq rfl rfl]

/-- On `C(B)` and at an index that is not negative, SETBIT reads the written pattern as the type (R93). -/
theorem exec_setbit_of_mem {tsel : TypeSelector} {s : State} (ha : InCoercionDomain (descriptor tsel).bits s.a)
    (hb : 0 ≤ s.b) (v : Bool) :
    exec (.setbit tsel v) s =
      respond s (.rv (readAs (descriptor tsel).signed (descriptor tsel).bits
        (writeBit (descriptor tsel).bits (patternOf (descriptor tsel).bits s.a) s.b.toNat v))) := by
  rw [exec_setbit_eq_indexed, indexed_of_mem ha hb, finish_writeBit (descriptor_bits_pos tsel) (patternOf_lt ..)]

end WrittenBit

section Responses

/-- Settles O47: the positions with a 1 are some of the `B` positions examined. -/
theorem popcntResponds : Obligations.PopcntResponds := fun _ _ _ =>
  ⟨rfl, fun ha => ⟨execPopcnt_of_mem ha, length_filter_range_le ..⟩, execPopcnt_of_not_mem⟩

/-- Settles O48: GETBIT is of the indexed shape, its value one bit of the pattern. -/
theorem getbitResponds : Obligations.GetbitResponds := by
  intro tsel v s
  simp only [exec_getbit_eq_indexed, bitAt_eq_testBit]
  exact ⟨rfl, indexed_of_mem, indexed_of_not_mem, indexed_of_neg⟩

/-- Settles O49: the written pattern is the `x` asked for at an index within the width, and the pattern itself above it. -/
theorem setbitResponds : Obligations.SetbitResponds := by
  intro tsel v s
  have hB := descriptor_bits_pos tsel
  have hu := patternOf_lt (descriptor tsel).bits s.a
  refine ⟨rfl, fun ha h0 hlast => ?inside, fun ha habove => ?above, fun ha => ?outside, fun ha hneg => ?negative⟩
  case inside =>
    exact ⟨_, writeBit_lt hB hu v, testBit_writeBit_toNat h0 hlast _ v, exec_setbit_of_mem ha h0 v⟩
  case above =>
    rw [exec_setbit_of_mem ha (by omega) v, writeBit_of_le hB (by omega), respond]
  case outside => rw [exec_setbit_eq_indexed, indexed_of_not_mem ha]
  case negative => rw [exec_setbit_eq_indexed, indexed_of_neg ha hneg]

end Responses

end Sys2Proof.BitsProofs

/-! The closed list of refusals, in the order of its checks (60_exceptions.md R107, R109). -/

namespace Sys2Proof.ExceptionsProofs

open Sys2Proof.Machine Sys2Proof.Safety Sys2Proof.MemoryProofs

/-- A result that settles by a row of the table is refused with that row's reason; where no row applies it is a response, which
is no refusal. -/
theorem eq_refused_iff_of_settlesBy {s : State} {o : Option Refusal} {x : Result} (h : SettlesBy s o x) (q : Refusal) :
    x = .refused q ↔ o = some q := by
  cases h with
  | refused p => rw [Host.Outcome.refused.injEq, Option.some.injEq]
  | response r => simp only [respond, reduceCtorEq]

/-- Settles O7: every step settles by the table of R107 in R109's order, so its refusals are the table's. -/
theorem stepRefusesByTheTable : Obligations.StepRefusesByTheTable := fun s =>
  eq_refused_iff_of_settlesBy (step_settlesBy s)

end Sys2Proof.ExceptionsProofs

/-! Decoding and encoding are inverse, and what a step does with the decoded command: it runs it, and leaves everything but the
response as it was (30_encoding.md sections 2 to 4; 20_memory.md R36, R37; 30_encoding.md R58). -/

namespace Sys2Proof.CommandProofs

open Sys2Proof.Machine Sys2Proof.Safety Sys2Proof.Laws Sys2Proof.MemoryProofs

section Words

theorem lt_of_instrOfCode_eq_some {op : Nat} {t : TypeSelector} {v : Bool} {i : Instr} (h : instrOfCode op t v = some i) :
    op < 17 := by
  by_contra hge
  rw [(instrOfCode_eq_none_iff op t v).2 (Nat.not_lt.1 hge)] at h
  cases h

/-- The word built from an operation code and the free fields decodes to the operation of that code (R44, R48). -/
theorem decode_controlWordOf {op : Nat} {t : TypeSelector} {v : Bool} {i : Instr} (h : instrOfCode op t v = some i) :
    decode (controlWordOf op t v) = .command i := by
  have hlt := lt_of_instrOfCode_eq_some h
  obtain ⟨hop, htsel, hv, hrsv⟩ := ControlWordFields.fields_of_controlWord ⟨op, by omega⟩ t v
  rw [decode_command_iff, ← rsvField_eq_zero_iff, ← opField_toNat]
  exact ⟨hrsv, by rw [hop, htsel, hv, h]⟩

theorem decode_encode (i : Instr) : decode (encode i) = .command i :=
  decode_controlWordOf (instrOfCode_of_fields i)

/-- Settles O1: the word of a command is built from its code and fields, which name the command. -/
theorem decodeEncodeEveryCommand : Obligations.DecodeEncodeEveryCommand := decode_encode

/-- A word without reserved bits is the sum of its fields (R44). -/
theorem controlWordOf_fields {w : ControlWord} (h : w.toNat / 1024 = 0) :
    controlWordOf (w.toNat % 32) (tselField w) (vField w) = w := by
  have hv : (vField w).toNat = w.toNat / 512 % 2 := by
    rw [vField_eq]
    obtain hbit | hbit := Nat.mod_two_eq_zero_or_one (w.toNat / 512) <;> simp [hbit]
  apply BitVec.eq_of_toNat_eq
  rw [controlWordOf, BitVec.toNat_ofNat, tselField_toNat, hv]
  omega

theorem encode_of_decode {w : ControlWord} {i : Instr} (h : decode w = .command i) : encode i = w := by
  obtain ⟨hrsv, hi⟩ := (decode_command_iff w i).1 h
  obtain ⟨hop, htsel, hv⟩ := instrOfCode_eq_some hi
  rw [encode, hop, htsel, hv, controlWordOf_fields hrsv]

/-- Settles O2: the decoded command has the word's fields, and the word is their sum. -/
theorem encodeDecodeEveryWord : Obligations.EncodeDecodeEveryWord := fun _ _ => encode_of_decode

/-- Settles O5: six words are encodings of the commands they spell; the other two have an undefined code, one with a reserved
bit as well. -/
theorem writtenWordsDecode : Obligations.WrittenWordsDecode :=
  ⟨decode_encode (.and 1 false), decode_encode (.shl 4 false), decode_encode (.rol 1 false),
    decode_encode (.setbit 0 true), decode_encode (.chkovf 12 false), decode_encode (.lookup 15 true),
    (decode_invalidOperation_iff _).2 (by decide), (decode_reserved_iff _).2 (by decide)⟩

end Words

section Count

theorem opcode_lt (i : Instr) : i.opcode < 17 := lt_of_instrOfCode_eq_some (instrOfCode_of_fields i)

/-- The decoder's answer as a test on the word: the words counted by R60. -/
def spellsCommand (w : ControlWord) : Bool :=
  match decode w with
  | .command _ => true
  | .invalid _ => false

theorem spellsCommand_iff (w : ControlWord) : spellsCommand w = true ↔ w.toNat / 1024 = 0 ∧ w.toNat % 32 < 17 := by
  cases hd : decode w with
  | command i =>
    obtain ⟨hrsv, hi⟩ := (decode_command_iff w i).1 hd
    have hop := opcode_lt i
    rw [(instrOfCode_eq_some hi).1] at hop
    simp [spellsCommand, hd, hrsv, hop]
  | invalid r =>
    cases r with
    | reservedControlBits =>
      have := (decode_reserved_iff w).1 hd
      simp only [spellsCommand, hd, Bool.false_eq_true, false_iff]
      omega
    | invalidOperation =>
      have := (decode_invalidOperation_iff w).1 hd
      simp only [spellsCommand, hd, Bool.false_eq_true, false_iff]
      omega

/-- Below `2^16` only the words below `2^10` can spell a command, and 17 of each 32 of them do (R60). -/
theorem length_filter_spellsCommand :
    ((List.range 65536).filter fun n => spellsCommand (BitVec.ofNat 16 n)).length = 17 * 16 * 2 := by
  have hiff : ∀ n ∈ List.range 65536,
      spellsCommand (BitVec.ofNat 16 n) = (decide (n < 1024) && decide (n % 32 < 17)) := by
    intro n hn
    rw [List.mem_range] at hn
    rw [Bool.eq_iff_iff, spellsCommand_iff, BitVec.toNat_ofNat, Nat.mod_eq_of_lt (by omega), Bool.and_eq_true,
      decide_eq_true_iff, decide_eq_true_iff, Nat.div_eq_zero_iff_lt (by decide)]
  have hhigh : ((List.range 64512).map (1024 + ·)).filter (fun n => decide (n < 1024) && decide (n % 32 < 17)) = [] := by
    rw [List.filter_eq_nil_iff]
    simp
  rw [List.filter_congr hiff, show 65536 = 1024 + 64512 from rfl, List.range_add, List.filter_append, hhigh, List.append_nil]
  decide +kernel

end Count

section Steps

theorem step_of_decode {s : State} {i : Instr} (h : decode s.cw = .command i) : step s = exec i s := by
  rw [step, fetch_eq_cw, h]

/-- Settles O6: the step looks at the decoder's answer and at nothing else. -/
theorem stepRunsDecodedCommand : Obligations.StepRunsDecodedCommand := fun _ _ => step_of_decode

/-- Settles O4: a step runs the command its word encodes or refuses the word; the count is that of the words below `2^10`
with a code below 17. -/
theorem commandWordsCounted : Obligations.CommandWordsCounted := by
  refine ⟨fun s => ?_, length_filter_spellsCommand⟩
  obtain ⟨i, hd, hs⟩ | ⟨r, -, hs⟩ := step_cases s
  · exact .inl ⟨i, encode_of_decode hd, opcode_lt i, hs⟩
  · cases r with
    | reservedControlBits => exact .inr (.inl hs)
    | invalidOperation => exact .inr (.inr hs)

/-- A result that settles and is a next state is a response. -/
theorem exists_response_of_settlesBy {s t : State} {q : Option Refusal} {x : Result} (h : SettlesBy s q x)
    (hx : x = .next t) : ∃ r, t = { s with response := some r } := by
  cases h with
  | refused => cases hx
  | response r => exact ⟨r, respond_next hx⟩

/-- Settles O9: every step settles, so its next state differs in the response only. -/
theorem stepChangesResponseOnly : Obligations.StepChangesResponseOnly := fun s _ h =>
  exists_response_of_settlesBy (step_settlesBy s) h

/-- A state and the one its step leads to hold the same command. -/
theorem presented_step {s t : State} (h : step s = .next t) : presented t = presented s := by
  obtain ⟨r, rfl⟩ := stepChangesResponseOnly s t h
  rfl

/-- Settles O11: the command is still there, so the second step answers, and with the first one's reply. -/
theorem representingIsIdempotent : Obligations.RepresentingIsIdempotent := by
  intro s t h
  obtain ⟨r, rfl⟩ := stepChangesResponseOnly s t h
  have hp := presented_step h
  obtain ⟨r', hr'⟩ : ∃ r', Answers { s with response := some r } r' := by
    rw [exists_answers_iff, hp]
    exact (exists_answers_iff s).1 ⟨r, h⟩
  have hreply := replyDependsOnCommandAlone _ _ hp
  rw [hr', h] at hreply
  cases hreply
  exact hr'

end Steps

section Scripts

/-- Two steps with one reply end alike: in responses that agree or in one refusal. -/
theorem next_or_refused_of_reply_eq {x y : Result} (h : reply x = reply y) :
    (∃ t u, x = .next t ∧ y = .next u ∧ t.response = u.response) ∨ ∃ q, x = .refused q ∧ y = .refused q := by
  match x, y with
  | .next t, .next u => exact .inl ⟨t, u, rfl, rfl, Reply.response.inj h⟩
  | .refused p, .refused q => exact .inr ⟨p, rfl, by rw [Reply.refused.inj h]⟩
  | .next _, .refused _ => cases h
  | .refused _, .next _ => cases h

/-- Settles O19, by induction over the script: each command's reply depends on the command alone, and what the host keeps is
the list of responses. -/
theorem scriptsIgnoreStartState : Obligations.ScriptsIgnoreStartState := by
  intro ls
  induction ls with
  | nil => exact fun _ _ _ => rfl
  | cons line rest ih =>
    intro rs s t
    cases line with
    | host => exact ih rs s t
    | command i a b =>
      simp only [runScript]
      cases a.resolve rs with
      | none => rfl
      | some va =>
        cases b.resolve rs with
        | none => rfl
        | some vb =>
          have hreply : reply (step (s.present ⟨encode i, va, vb⟩)) = reply (step (t.present ⟨encode i, va, vb⟩)) :=
            replyDependsOnCommandAlone _ _ rfl
          obtain ⟨s', t', hs, ht, hr⟩ | ⟨q, hs, ht⟩ := next_or_refused_of_reply_eq hreply
          · simp only [hs, ht, hr]
            cases t'.response with
            | none => rfl
            | some r => exact ih (rs ++ [r]) s' t'
          · simp only [hs, ht]

end Scripts

end Sys2Proof.CommandProofs

/-! The primitives on values (00_scope.md R10, R11, R17), and the registry's laws: reading the low bits of the port as the type
is the wrap, so CVT is WRAP, and both and the saturation are retractions onto the type's range (40_registry_policy.md R66, R67). -/

namespace Sys2Proof.ConversionProofs

open Sys2Proof.Machine Sys2Proof.Safety Sys2Proof.Laws Sys2Proof.RegistryProofs

section Coercion

/-- The register domain starts half way up the negative part of the coercion domain (R11). -/
theorem mem_coercionDomain_of_register {B : Nat} {a : Int} (hB : 1 ≤ B) (h : InRegisterDomain B a) : InCoercionDomain B a := by
  obtain ⟨hlo, hhi⟩ := h
  have := two_pow_half hB
  have := two_pow_pos (B - 1)
  exact ⟨by omega, hhi⟩

/-- Settles O20: the coercion of `C(B)` is the remainder, whose range is that of the pattern. -/
theorem coercionIsRemainder : Obligations.CoercionIsRemainder := by
  refine fun B a hB => ⟨mem_coercionDomain_of_register hB, fun ha => ?_⟩
  have h0 := Int.emod_nonneg a (two_pow_pos B).ne'
  have hlt := Int.emod_lt_of_pos a (two_pow_pos B)
  rw [upat_eq_emod ha]
  exact ⟨rfl, h0, by omega⟩

end Coercion

section WrapFormula

/-- Reducing twice with one range added in between is the Euclidean remainder, whatever first remainder in `(-r, r)` is taken. -/
theorem tmod_add_eq_emod {m u r : Int} (hm : -r < m) (hu : m % r = u % r) : Int.tmod (m + r) r = u % r := by
  rw [Int.tmod_eq_emod_of_nonneg (by omega), Int.add_emod_right, hu]

/-- Settles O21: each double reduction is the Euclidean remainder, and that gives the one congruent member of the interval. -/
theorem wrapFormulaConventions : Obligations.WrapFormulaConventions := by
  intro v lo hi h
  have hr : 0 < hi - lo + 1 := by omega
  refine ⟨?truncating, ?flooring, ?euclidean, eq_wrapInto_iff h v⟩
  case truncating =>
    have hm : -(hi - lo + 1) < Int.tmod (v - lo) (hi - lo + 1) := Int.lt_tmod_of_pos _ hr
    have hmod : Int.tmod (v - lo) (hi - lo + 1) % (hi - lo + 1) = (v - lo) % (hi - lo + 1) := by
      rw [Int.tmod_def, Int.sub_mul_emod_self_left]
    rw [tmod_add_eq_emod hm hmod, wrapInto]
  case flooring =>
    rw [Int.fmod_eq_emod_of_nonneg _ hr.le, Int.fmod_eq_emod_of_nonneg _ hr.le, Int.add_emod_right, Int.emod_emod, wrapInto]
  case euclidean => rw [Int.add_emod_right, Int.emod_emod, wrapInto]

end WrapFormula

section TypedValues

theorem patternOf_eq_iff {B : Nat} {a b : Int} : patternOf B a = patternOf B b ↔ a % (2 : Int) ^ B = b % (2 : Int) ^ B := by
  rw [← patternOf_cast, ← patternOf_cast, Int.natCast_inj]

/-- A pattern read as a type of its width lies in the type's range (R25). -/
theorem readAs_mem_type (tsel : TypeSelector) {x : Nat} (h : x < 2 ^ (descriptor tsel).bits) :
    (descriptor tsel).min ≤ readAs (descriptor tsel).signed (descriptor tsel).bits x ∧
      readAs (descriptor tsel).signed (descriptor tsel).bits x ≤ (descriptor tsel).max := by
  have e := two_pow_cast (descriptor tsel).bits
  have e1 := two_pow_cast ((descriptor tsel).bits - 1)
  have h2 := two_pow_half (descriptor_bits_pos tsel)
  rw [descriptor_min, descriptor_max, readAs]
  cases (descriptor tsel).signed with
  | false => simp; omega
  | true =>
    simp only [true_and, if_true]
    split <;> constructor <;> omega

/-- The wrap is the one member of the type's range that has the value's pattern (R17, R25). -/
theorem eq_wrapInto_descriptor_iff (tsel : TypeSelector) (a y : Int) :
    y = wrapInto a (descriptor tsel).min (descriptor tsel).max ↔
      (descriptor tsel).min ≤ y ∧ y ≤ (descriptor tsel).max ∧
        patternOf (descriptor tsel).bits y = patternOf (descriptor tsel).bits a := by
  rw [eq_wrapInto_iff (descriptor_min_le_max tsel), descriptor_range, patternOf_eq_iff]
  refine and_congr_right fun _ => and_congr_right fun _ => ⟨?_, fun h => ?_⟩
  · rintro ⟨q, rfl⟩
    rw [Int.add_mul_emod_self_right]
  · refine ⟨(a - y) / (2 : Int) ^ (descriptor tsel).bits, ?_⟩
    rw [Int.ediv_mul_cancel (Int.dvd_of_emod_eq_zero (Int.emod_eq_emod_iff_emod_sub_eq_zero.1 h.symm))]
    omega

/-- The low bits of the port, read as the type, are the value's wrap. -/
theorem readAs_patternOf (tsel : TypeSelector) (a : Int) :
    readAs (descriptor tsel).signed (descriptor tsel).bits (patternOf (descriptor tsel).bits a) =
      wrapInto a (descriptor tsel).min (descriptor tsel).max := by
  have hlt := patternOf_lt (descriptor tsel).bits a
  obtain ⟨hlo, hhi⟩ := readAs_mem_type tsel hlt
  exact (eq_wrapInto_descriptor_iff ..).2 ⟨hlo, hhi, (readAs_mem_coercionDomain _ hlt).2⟩

theorem wrapInto_of_mem {lo hi a : Int} (hlo : lo ≤ a) (hhi : a ≤ hi) : wrapInto a lo hi = a :=
  ((eq_wrapInto_iff (hlo.trans hhi) a a).2 ⟨hlo, hhi, 0, by omega⟩).symm

end TypedValues

section Conversion

theorem exec_cvt_eq (tsel : TypeSelector) (v : Bool) (s : State) :
    exec (.cvt tsel v) s =
      .next { s with response := some (.rv
        (readAs (descriptor tsel).signed (descriptor tsel).bits (patternOf (descriptor tsel).bits s.a))) } := by
  have hvalue (x : Nat) : (if (descriptor tsel).signed then signExtend (descriptor tsel).bits x else (x : Int)) =
      readAs (descriptor tsel).signed (descriptor tsel).bits x := by
    rw [signExtend_eq_readAs]
    cases (descriptor tsel).signed
    · exact (readAs_false ..).symm
    · rfl
  rw [← hvalue]; rfl

/-- Settles O28: the masked number is the port's pattern, and the sign extension reads it as a signed type. -/
theorem cvtResponds : Obligations.CvtResponds := fun tsel v s => ⟨rfl, exec_cvt_eq tsel v s⟩

theorem exec_cvt_eq_wrap (tsel : TypeSelector) (v : Bool) (s : State) : exec (.cvt tsel v) s = exec (.wrap tsel v) s := by
  rw [exec_cvt_eq, readAs_patternOf, exec_wrap_eq]

end Conversion

section Laws

/-- What maps into an interval and is the identity on it changes exactly the values outside. -/
theorem outside_iff_ne {lo hi a y : Int} (hy : lo ≤ y ∧ y ≤ hi) (hid : lo ≤ a → a ≤ hi → y = a) :
    a < lo ∨ hi < a ↔ y ≠ a := by
  constructor
  · rintro hout rfl
    omega
  · intro hne
    by_contra hin
    exact hne (hid (by omega) (by omega))

/-- The policy saturates a signed type and wraps an unsigned one, in range as well: there both are the identity (R63, R67). -/
theorem policyValue_eq (d : Descriptor) (a : Int) :
    policyValue d a = if d.signed then saturate d a else wrapInto a d.min d.max := by
  cases hovf : overflow d a with
  | true => rw [policyValue, if_pos hovf]
  | false =>
    have hin : ¬(a < d.min ∨ d.max < a) := by rw [← overflow_iff, hovf]; decide
    rw [policyValue_of_mem (by omega) (by omega), saturate_of_mem (by omega) (by omega),
      wrapInto_of_mem (by omega) (by omega), ite_self]

/-- Settles O29: saturation and wrap are retractions onto the type's range, and CVT is WRAP. -/
theorem registryLaws : Obligations.RegistryLaws := by
  intro tsel v s
  have hd := descriptor_min_le_max tsel
  have hc := saturate_mem hd s.a
  have hw := wrapInto_mem hd s.a
  have hovf := overflow_iff (descriptor tsel) s.a
  refine ⟨overflow (descriptor tsel) s.a, saturate (descriptor tsel) s.a,
    wrapInto s.a (descriptor tsel).min (descriptor tsel).max, rfl, rfl, ?_, ?_,
    hovf.trans (outside_iff_ne hc saturate_of_mem), hovf.trans (outside_iff_ne hw wrapInto_of_mem), hovf,
    hc.1, hc.2, hw.1, hw.2, fun hlo hhi => ⟨saturate_of_mem hlo hhi, wrapInto_of_mem hlo hhi⟩, ?_, ?_, ?_⟩
  · rw [exec_cvt_eq_wrap, exec_wrap_eq]
  · rw [← policyValue_eq]; rfl
  · rw [exec_clamp_eq, saturate_of_mem hc.1 hc.2]
  · rw [exec_wrap_eq, wrapInto_of_mem hw.1 hw.2]
  · rw [exec_cvt_eq_wrap, exec_wrap_eq, wrapInto_of_mem hw.1 hw.2]

end Laws

end Sys2Proof.ConversionProofs

/-! The ranges of the values in a response, and with them the invariant that the value ports can carry all of them; how a value
port carries an integer (30_encoding.md R46, R47; 00_scope.md R8). -/

namespace Sys2Proof.ClosureProofs

open Sys2Proof.Machine Sys2Proof.Safety Sys2Proof.Laws Sys2Proof.StateProofs Sys2Proof.MemoryProofs Sys2Proof.RegistryProofs
  Sys2Proof.ShiftProofs Sys2Proof.RotateProofs Sys2Proof.BitsProofs Sys2Proof.ConversionProofs Sys2Proof.CommandProofs

section Domains

variable {B : Nat} {y : Int}

theorem natCast_mem_registerDomain {x : Nat} (h : x < 2 ^ B) : InRegisterDomain B x := by
  have e := two_pow_cast B
  have := two_pow_pos (B - 1)
  constructor <;> omega

theorem finish_mem_registerDomain (hB : 1 ≤ B) (x : Nat) (signed : Bool) : InRegisterDomain B (finish B x signed) := by
  rw [finish_eq_readAs]
  exact readAs_bounds hB signed (Nat.mod_lt _ (Nat.two_pow_pos B))

theorem shiftRight_mem_registerDomain {d : Descriptor} (hd : 1 ≤ d.bits) (a : Int) (ua k : Nat) :
    InRegisterDomain d.bits (shiftRight d a ua k) := by
  unfold shiftRight
  split
  · rw [signExtend_eq_readAs, maskTo_eq_mod]
    exact readAs_bounds hd true (Nat.mod_lt _ (Nat.two_pow_pos _))
  · exact finish_mem_registerDomain hd _ _

/-- A type's range is part of the register domain of its width (R11, R25). -/
theorem mem_registerDomain_of_mem_type (tsel : TypeSelector) (h : (descriptor tsel).min ≤ y ∧ y ≤ (descriptor tsel).max) :
    InRegisterDomain (descriptor tsel).bits y := by
  obtain ⟨hlo, hhi⟩ := h
  have h2 := two_pow_half (descriptor_bits_pos tsel)
  have hp := two_pow_pos ((descriptor tsel).bits - 1)
  rw [descriptor_min] at hlo
  rw [descriptor_max] at hhi
  constructor <;> split_ifs at hlo hhi <;> omega

/-- The widest register domain is R47's range. -/
theorem closure_of_mem_registerDomain (hB : B ≤ 64) (h : InRegisterDomain B y) : InClosure y := by
  obtain ⟨hlo, hhi⟩ := h
  have h1 : (2 : Int) ^ (B - 1) ≤ 2 ^ 63 := pow_le_pow_right₀ (by decide) (by omega)
  have h2 : (2 : Int) ^ B ≤ 2 ^ 64 := pow_le_pow_right₀ (by decide) hB
  constructor <;> omega

theorem fitsPort_of_closure {vw : Nat} (hvw : 65 ≤ vw) (h : InClosure y) : FitsPort vw y := by
  obtain ⟨hlo, hhi⟩ := h
  have h1 : (2 : Int) ^ 64 ≤ 2 ^ (vw - 1) := pow_le_pow_right₀ (by decide) (by omega)
  constructor <;> omega

end Domains

section Ranges

/-- The range of each operation's values (R47), `a` the value of port `A`. -/
def InRange (i : Instr) (a : Int) (r : Response) : Prop :=
  match i with
  | .popcnt tsel _ => ∃ y, r = .rv y ∧ 0 ≤ y ∧ y ≤ ((descriptor tsel).bits : Int)
  | .getbit _ _ => r = .rv 0 ∨ r = .rv 1
  | .clamp tsel _ | .wrap tsel _ | .cvt tsel _ => ∃ y, r = .rv y ∧ (descriptor tsel).min ≤ y ∧ y ≤ (descriptor tsel).max
  | .chkovf tsel _ => ∃ ovf value wrapped, r = .ro ovf value wrapped a ∧
      (descriptor tsel).min ≤ value ∧ value ≤ (descriptor tsel).max ∧
      (descriptor tsel).min ≤ wrapped ∧ wrapped ≤ (descriptor tsel).max
  | .lookup tsel _ => ∃ tcode bits signed, r = .rd tcode bits signed (descriptor tsel).min (descriptor tsel).max
  | i => ∃ y, r = .rv y ∧ InRegisterDomain (descriptor i.tsel).bits y

/-- A result that is a next state has a response with the property `P`. -/
def AnswersWith (P : Response → Prop) (x : Result) : Prop :=
  ∀ t, x = .next t → ∃ r, t.response = some r ∧ P r

variable {P : Response → Prop} {k : Nat → Result}

theorem answersWith_respond {r : Response} (s : State) (h : P r) : AnswersWith P (respond s r) :=
  fun _ ht => ⟨r, by rw [respond_next ht], h⟩

theorem answersWith_withPattern (B : Nat) (a : Int) (h : ∀ u, u < 2 ^ B → AnswersWith P (k u)) :
    AnswersWith P (withPattern B a k) :=
  fun t ht => h _ (patternOf_lt B a) t (withPattern_next ht).2

theorem answersWith_counted {value : Nat → Nat → Int} {tsel : TypeSelector} (s : State)
    (h : ∀ u k, u < 2 ^ (descriptor tsel).bits → k < (descriptor tsel).bits → P (.rv (value u k))) :
    AnswersWith P (counted value tsel s) :=
  answersWith_withPattern _ _ fun u hu _ ht =>
    answersWith_respond s (h u _ hu (reducedCount_lt tsel s.b)) _ (withCount_next ht).2

theorem answersWith_indexed {value : Nat → Nat → Int} {tsel : TypeSelector} (s : State)
    (h : ∀ u n, P (.rv (value u n))) : AnswersWith P (indexed value tsel s) :=
  answersWith_withPattern _ _ fun u _ _ ht => answersWith_respond s (h u _) _ (withIndex_next ht).2

theorem policyValue_mem {d : Descriptor} (hd : d.min ≤ d.max) (a : Int) :
    d.min ≤ policyValue d a ∧ policyValue d a ≤ d.max := by
  rw [policyValue_eq]
  split
  · exact saturate_mem hd a
  · exact wrapInto_mem hd a

/-- Every meaning answers in its range: the back end reads a masked pattern, the unsigned results are patterns, and the registry's
values are in the type's range. -/
theorem exec_answersWith_inRange (i : Instr) (s : State) : AnswersWith (InRange i s.a) (exec i s) := by
  cases i with
  | and t | or t | xor t =>
    exact answersWith_withPattern _ _ fun _ _ => answersWith_withPattern _ _ fun _ _ =>
      answersWith_respond s ⟨_, rfl, finish_mem_registerDomain (descriptor_bits_pos t) _ _⟩
  | not t =>
    exact answersWith_withPattern _ _ fun _ _ =>
      answersWith_respond s ⟨_, rfl, finish_mem_registerDomain (descriptor_bits_pos t) _ _⟩
  | shl t v =>
    rw [exec_shl_eq_counted]
    exact answersWith_counted s fun _ _ _ _ => ⟨_, rfl, finish_mem_registerDomain (descriptor_bits_pos t) _ _⟩
  | shr t v =>
    rw [exec_shr_eq_counted]
    exact answersWith_counted s fun _ _ _ _ => ⟨_, rfl, shiftRight_mem_registerDomain (descriptor_bits_pos t) _ _ _⟩
  | ushr t v =>
    rw [exec_ushr_eq_counted]
    exact answersWith_counted s fun _ _ hu _ => ⟨_, rfl, natCast_mem_registerDomain ((Nat.shiftRight_le ..).trans_lt hu)⟩
  | rol t v =>
    rw [exec_rol_eq_counted]
    exact answersWith_counted s fun _ _ _ _ => ⟨_, rfl, natCast_mem_registerDomain (rotateLeft_lt ..)⟩
  | ror t v =>
    rw [exec_ror_eq_counted]
    exact answersWith_counted s fun _ _ _ hk => ⟨_, rfl, natCast_mem_registerDomain (rotateRight_lt hk.le _)⟩
  | popcnt t v =>
    rw [exec]
    refine answersWith_withPattern _ _ fun u _ => answersWith_respond s ⟨_, rfl, Int.natCast_nonneg _, ?_⟩
    rw [popCount_eq_length_filter]
    exact_mod_cast length_filter_range_le ..
  | getbit t v =>
    rw [exec_getbit_eq_indexed]
    refine answersWith_indexed s fun u n => ?_
    rw [bitAt_eq_testBit]
    cases u.testBit n
    · exact .inl rfl
    · exact .inr rfl
  | setbit t v =>
    rw [exec_setbit_eq_indexed]
    exact answersWith_indexed s fun _ _ => ⟨_, rfl, finish_mem_registerDomain (descriptor_bits_pos t) _ _⟩
  | chkovf t =>
    obtain ⟨hvlo, hvhi⟩ := policyValue_mem (descriptor_min_le_max t) s.a
    exact answersWith_respond s ⟨_, _, _, rfl, hvlo, hvhi, wrapInto_mem (descriptor_min_le_max t) _⟩
  | clamp t => exact answersWith_respond s ⟨_, rfl, saturate_mem (descriptor_min_le_max t) _⟩
  | wrap t => exact answersWith_respond s ⟨_, rfl, wrapInto_mem (descriptor_min_le_max t) _⟩
  | cvt t =>
    rw [exec_cvt_eq_wrap]
    exact answersWith_respond s ⟨_, rfl, wrapInto_mem (descriptor_min_le_max t) _⟩
  | lookup t => exact answersWith_respond s ⟨_, _, _, rfl⟩

end Ranges

section Closure

/-- Every value of the response has the property `P`, except `ORIG`, which is the value `a` of port `A`. -/
def ValuesIn (P : Int → Prop) (a : Int) : Response → Prop
  | .rv y => P y
  | .ro _ value wrapped orig => P value ∧ P wrapped ∧ orig = a
  | .rd _ _ _ min max => P min ∧ P max

theorem closed_iff_valuesIn (a : Int) (r : Response) : Closed a r ↔ ValuesIn InClosure a r := by
  cases r <;> rfl

theorem valuesIn_mono {P Q : Int → Prop} (hPQ : ∀ {y}, P y → Q y) {a : Int} {r : Response} (h : ValuesIn P a r) :
    ValuesIn Q a r := by
  cases r with
  | rv y => exact hPQ h
  | ro ovf value wrapped orig =>
    obtain ⟨hv, hw, ho⟩ := h
    exact ⟨hPQ hv, hPQ hw, ho⟩
  | rd tcode bits signed min max => exact h.imp hPQ hPQ

theorem responseFits_of_valuesIn {vw : Nat} {a : Int} (ha : FitsPort vw a) {r : Response}
    (h : ValuesIn (FitsPort vw) a r) : ResponseFits vw r := by
  cases r with
  | rv y => exact h
  | ro ovf value wrapped orig =>
    obtain ⟨hv, hw, rfl⟩ := h
    exact ⟨hv, hw, ha⟩
  | rd tcode bits signed min max => exact h

/-- Every range of R47 is part of the register domain of the type's width. -/
theorem valuesIn_registerDomain {i : Instr} {a : Int} {r : Response} (h : InRange i a r) :
    ValuesIn (InRegisterDomain (descriptor i.tsel).bits) a r := by
  cases i with
  | popcnt t =>
    obtain ⟨y, rfl, hlo, hhi⟩ := h
    lift y to Nat using hlo
    exact natCast_mem_registerDomain (lt_of_le_of_lt (by exact_mod_cast hhi) Nat.lt_two_pow_self)
  | getbit t =>
    have hB := Nat.one_lt_two_pow (Nat.one_le_iff_ne_zero.1 (descriptor_bits_pos t))
    obtain rfl | rfl := h
    · exact natCast_mem_registerDomain (x := 0) (Nat.two_pow_pos _)
    · exact natCast_mem_registerDomain (x := 1) hB
  | clamp t | wrap t | cvt t =>
    obtain ⟨y, rfl, hy⟩ := h
    exact mem_registerDomain_of_mem_type t hy
  | chkovf t =>
    obtain ⟨ovf, value, wrapped, rfl, hvlo, hvhi, hw⟩ := h
    exact ⟨mem_registerDomain_of_mem_type t ⟨hvlo, hvhi⟩, mem_registerDomain_of_mem_type t hw, rfl⟩
  | lookup t =>
    obtain ⟨tcode, bits, signed, rfl⟩ := h
    exact ⟨mem_registerDomain_of_mem_type t ⟨le_rfl, descriptor_min_le_max t⟩,
      mem_registerDomain_of_mem_type t ⟨descriptor_min_le_max t, le_rfl⟩⟩
  | _ =>
    obtain ⟨y, rfl, hy⟩ := h
    exact hy

/-- The engine's commands answer on port `Y`. -/
theorem exists_rv_of_inRange {i : Instr} (hop : i.opcode ≤ 11) {a : Int} {r : Response} (h : InRange i a r) :
    ∃ y, r = .rv y ∧ InRegisterDomain (descriptor i.tsel).bits y := by
  have hv := valuesIn_registerDomain h
  have hrv : ∃ y, r = .rv y := by
    cases i with
    | getbit t => exact h.elim (⟨_, ·⟩) (⟨_, ·⟩)
    | chkovf | clamp | wrap | cvt | lookup => simp [Instr.opcode] at hop
    | _ => exact h.imp fun _ => And.left
  obtain ⟨y, rfl⟩ := hrv
  exact ⟨y, rfl, hv⟩

/-- Settles O13: every meaning answers in its range, and each range is part of the register domain, which the closure and every
port of at least 65 bits contain. -/
theorem responsesAreClosed : Obligations.ResponsesAreClosed := by
  intro i s t h
  obtain ⟨r, hr, hrange⟩ := exec_answersWith_inRange i s t h
  have hclosed : ValuesIn InClosure s.a r :=
    valuesIn_mono (closure_of_mem_registerDomain (descriptor_bits_le i.tsel)) (valuesIn_registerDomain hrange)
  refine ⟨r, hr, (closed_iff_valuesIn s.a r).2 hclosed, fun hop => exists_rv_of_inRange hop hrange,
    ?popcnt, ?getbit, ?registry, ?chkovf, ?lookup,
    fun vw hvw ha => responseFits_of_valuesIn ha (valuesIn_mono (fitsPort_of_closure hvw) hclosed)⟩
  case popcnt => exact fun hop => match i, hop, hrange with | .popcnt .., _, h => h
  case getbit => exact fun hop => match i, hop, hrange with | .getbit .., _, h => h
  case registry =>
    exact fun hlo hhi => match i, hlo, hhi, hrange with
      | .clamp .., _, _, h | .wrap .., _, _, h | .cvt .., _, _, h => h
  case chkovf => exact fun hop => match i, hop, hrange with | .chkovf .., _, h => h
  case lookup => exact fun hop => match i, hop, hrange with | .lookup .., _, h => h

end Closure

section Ports

/-- Settles O14: the inputs stay, and the response is closed. -/
theorem stepKeepsPortsFitting : Obligations.StepKeepsPortsFitting := by
  intro vw s t hvw hs h
  obtain ⟨ha, hb, -⟩ := hs
  obtain ⟨i, -, hstep⟩ | ⟨q, -, hstep⟩ := step_cases s
  · obtain ⟨r, hr, -, -, -, -, -, -, -, hfits⟩ := responsesAreClosed i s t (hstep ▸ h)
    obtain ⟨_, rfl⟩ := stepChangesResponseOnly s t h
    refine ⟨ha, hb, fun r' hr' => ?_⟩
    rw [← Option.some.inj (hr.symm.trans hr')]
    exact hfits vw hvw ha
  · exact absurd (hstep ▸ h) (refuseInvalid_ne_next q t)

/-- Settles O15: the input ports read 0, and there is no response. -/
theorem resetPortsFit : Obligations.ResetPortsFit := by
  intro vw hvw
  have h0 : FitsPort vw 0 := fitsPort_of_closure hvw (by decide)
  exact ⟨h0, h0, fun r hr => by cases hr⟩

/-- Settles O16: before the first command nothing has answered. -/
theorem resetHasNoResponse : Obligations.ResetHasNoResponse := reset_response

/-- A port reads back what it carries, if that fits (R46). -/
theorem portValue_portBits {vw : Nat} (hvw : 1 ≤ vw) {x : Int} (h : FitsPort vw x) : portValue (portBits vw x) = x := by
  obtain ⟨hlo, hhi⟩ := h
  exact BitVec.toInt_ofInt_eq_self (by omega) hlo (by omega)

/-- Settles O18: the port is the value's pattern at the port's width, of which the low `B` bits are the pattern at width `B`. -/
theorem valuePortsCarryIntegers : Obligations.ValuePortsCarryIntegers := by
  intro vw x hvw hx
  have hnat : ((portBits vw x).toNat : Int) = x % (2 : Int) ^ vw := by
    rw [portBits, toNat_ofInt_eq_patternOf, patternOf_cast]
  have hval : portValue (portBits vw x) = x := portValue_portBits (by omega) hx
  refine ⟨hnat, hval, ?sign, fun tsel hC => ?low⟩
  case sign => rw [BitVec.msb_eq_toInt, decide_eq_true_iff, ← portValue, hval]
  case low =>
    have hB := descriptor_bits_le tsel
    push_cast
    rw [hnat, Int.emod_emod_of_dvd _ (pow_dvd_pow 2 (by omega)), upat_eq_emod hC]

end Ports

end Sys2Proof.ClosureProofs

/-! The laws of the four engine families, and the engine against the library's bit vectors (41_engine_logic.md R76,
42_engine_shift.md R82, 43_engine_rotate.md R87, 44_engine_bits.md R94). -/

namespace Sys2Proof.EngineLawProofs

open Sys2Proof.Machine Sys2Proof.Safety Sys2Proof.Laws Sys2Proof.MemoryProofs Sys2Proof.RegistryProofs Sys2Proof.LogicProofs
  Sys2Proof.ShiftProofs Sys2Proof.RotateProofs Sys2Proof.BitsProofs Sys2Proof.ConversionProofs

section Patterns

/-- Two patterns with the same bits below the width are equal. -/
theorem eq_of_testBit_below {B x y : Nat} (hx : x < 2 ^ B) (hy : y < 2 ^ B) (h : ∀ i, i < B → x.testBit i = y.testBit i) :
    x = y := by
  apply Nat.eq_of_testBit_eq
  intro i
  obtain hi | hi := Nat.lt_or_ge i B
  · exact h i hi
  · rw [testBit_eq_false_of_lt hx hi, testBit_eq_false_of_lt hy hi]

/-- The pattern of `-a - 1` is the complement of `a`'s: a multiple of `2^B` lies between the two numbers. -/
theorem patternOf_neg_sub_one (B : Nat) (a : Int) : patternOf B (-a - 1) = 2 ^ B - 1 - patternOf B a := by
  have hlt := patternOf_lt B a
  have hcast : ((2 ^ B - 1 - patternOf B a : Nat) : Int) = (2 : Int) ^ B - 1 - a % (2 : Int) ^ B := by
    rw [← patternOf_cast, ← two_pow_cast]
    omega
  have hdiv := Int.emod_add_mul_ediv a ((2 : Int) ^ B)
  have hsum : -a - 1 = ((2 ^ B - 1 - patternOf B a : Nat) : Int) + (2 : Int) ^ B * (-(a / (2 : Int) ^ B) - 1) := by
    rw [hcast]
    linarith
  have hmod : patternOf B (-a - 1) = patternOf B ((2 ^ B - 1 - patternOf B a : Nat) : Int) := by
    rw [patternOf_eq_iff, hsum, Int.add_mul_emod_self_left]
  rw [hmod, patternOf_natCast (by omega)]

/-- A negative operand of `C(B)` is coerced by one addition (R10). -/
theorem patternOf_of_neg {B : Nat} {a : Int} (ha : InCoercionDomain B a) (hneg : a < 0) :
    (patternOf B a : Int) = a + (2 : Int) ^ B := by
  rw [patternOf_cast, ← upat_eq_emod ha, upat, if_neg (by omega)]

theorem patternOf_of_nonneg {B : Nat} {a : Int} (ha : InCoercionDomain B a) (h0 : 0 ≤ a) : (patternOf B a : Int) = a := by
  rw [patternOf_cast, ← upat_eq_emod ha, upat, if_pos h0]

/-- Two values that agree give one response. -/
theorem respond_rv_congr {s : State} {x y : Int} (h : x = y) :
    respond s (.rv x) = .next { s with response := some (.rv y) } := by
  rw [h, respond]

/-- A bit vector read as a value: its signed or its unsigned number. -/
theorem readAs_toNat {B : Nat} (hB : 1 ≤ B) (signed : Bool) (x : BitVec B) :
    readAs signed B x.toNat = if signed then x.toInt else (x.toNat : Int) := by
  cases signed with
  | false => exact readAs_false ..
  | true =>
    have h2 : 2 ^ B = 2 * 2 ^ (B - 1) := by rw [← pow_succ', Nat.sub_add_cancel hB]
    have hcond : 2 ^ (B - 1) ≤ x.toNat ↔ ¬2 * x.toNat < 2 ^ B := by omega
    simp only [readAs, true_and, if_true, BitVec.toInt_eq_toNat_cond, hcond, ite_not, two_pow_cast]

end Patterns

section Logic

/-- Common and joint bits add up to both patterns. -/
theorem and_add_or (a b : Nat) : (a &&& b) + (a ||| b) = a + b := by
  induction a using Nat.strong_induction_on generalizing b with
  | _ a ih =>
    by_cases ha : a = 0
    · subst ha; simp
    have h := ih (a / 2) (by omega) (b / 2)
    rw [← Nat.and_div_two, ← Nat.or_div_two] at h
    have hand : (a &&& b) % 2 = 1 ↔ a % 2 = 1 ∧ b % 2 = 1 := Nat.and_mod_two_eq_one
    have hor : (a ||| b) % 2 = 1 ↔ a % 2 = 1 ∨ b % 2 = 1 := Nat.or_mod_two_eq_one
    omega

/-- De Morgan on patterns (R76). -/
theorem complement_and {B x y : Nat} (hx : x < 2 ^ B) (hy : y < 2 ^ B) :
    2 ^ B - 1 - (x &&& y) = (2 ^ B - 1 - x) ||| (2 ^ B - 1 - y) := by
  apply Nat.eq_of_testBit_eq
  intro i
  rw [testBit_complement (Nat.and_lt_two_pow x hy), Nat.testBit_or, testBit_complement hx, testBit_complement hy,
    Nat.testBit_and, Bool.not_and, Bool.and_or_distrib_left]

/-- Exclusive OR with all ones is the complement (R76). -/
theorem xor_mask {B x : Nat} (hx : x < 2 ^ B) : x ^^^ (2 ^ B - 1) = 2 ^ B - 1 - x := by
  have hmask : 2 ^ B - 1 < 2 ^ B := Nat.sub_lt (Nat.two_pow_pos B) Nat.one_pos
  refine eq_of_testBit_below (Nat.xor_lt_two_pow hx hmask) (by omega) fun i hi => ?_
  rw [testBit_complement hx, Nat.testBit_xor, Nat.testBit_two_pow_sub_one, decide_eq_true hi, Bool.xor_true, Bool.true_and]

/-- NOT in the range of a signed type is `-a - 1`, which is in that range again (R75). -/
theorem readAs_complement_of_signed {tsel : TypeSelector} (hs : (descriptor tsel).signed = true) {a : Int}
    (hlo : (descriptor tsel).min ≤ a) (hhi : a ≤ (descriptor tsel).max) :
    readAs (descriptor tsel).signed (descriptor tsel).bits
      (2 ^ (descriptor tsel).bits - 1 - patternOf (descriptor tsel).bits a) = -a - 1 := by
  rw [← patternOf_neg_sub_one, readAs_patternOf]
  rw [descriptor_min, if_pos hs] at hlo
  rw [descriptor_max, if_pos hs] at hhi
  apply wrapInto_of_mem
  · rw [descriptor_min, if_pos hs]; omega
  · rw [descriptor_max, if_pos hs]; omega

/-- Settles O34: the gates' values are the bit operations on the patterns, so the laws are those of the patterns. -/
theorem logicLaws : Obligations.LogicLaws := by
  intro tsel v s B pa pb MASK ha hb
  have hpa : pa < 2 ^ B := patternOf_lt B s.a
  have hpb : pb < 2 ^ B := patternOf_lt B s.b
  have hmask : MASK < 2 ^ B := Nat.sub_lt (Nat.two_pow_pos B) Nat.one_pos
  obtain ⟨-, hand, -⟩ := andResponds tsel v s
  obtain ⟨-, hor, -⟩ := orResponds tsel v s
  obtain ⟨-, hxor, -⟩ := xorResponds tsel v s
  obtain ⟨hp, hple⟩ := hand ha hb
  obtain ⟨ho, hole⟩ := hor ha hb
  obtain ⟨hx, hxle⟩ := hxor ha hb
  have hdiff := xor_add_and pa pb
  refine ⟨pa &&& pb, pa ||| pb, pa ^^^ pb, hp, ho, hx, hple, hole, hxle, and_add_or pa pb, by omega,
    complement_and hpa hpb, ?mask, fun a' ha' hmod => ?congr, fun hs hlo hhi => ?not⟩
  case mask =>
    obtain ⟨-, hxor', -⟩ := xorResponds tsel v { s with b := (MASK : Nat) }
    have hval : pa ^^^ patternOf B (MASK : Nat) = MASK - pa := by rw [patternOf_natCast hmask, xor_mask hpa]
    exact (hxor' ha (natCast_mem_coercionDomain hmask)).1.trans (respond_rv_congr (congrArg _ hval))
  case congr =>
    have hpa' : patternOf B a' = pa := patternOf_eq_iff.2 hmod
    obtain ⟨-, hand', -⟩ := andResponds tsel v { s with a := a' }
    obtain ⟨-, hor', -⟩ := orResponds tsel v { s with a := a' }
    obtain ⟨-, hxor', -⟩ := xorResponds tsel v { s with a := a' }
    exact ⟨(hand' ha' hb).1.trans (respond_rv_congr (congrArg (fun x : Nat => ((x &&& pb : Nat) : Int)) hpa')),
      (hor' ha' hb).1.trans (respond_rv_congr (congrArg (fun x : Nat => ((x ||| pb : Nat) : Int)) hpa')),
      (hxor' ha' hb).1.trans (respond_rv_congr (congrArg (fun x : Nat => ((x ^^^ pb : Nat) : Int)) hpa'))⟩
  case not =>
    obtain ⟨-, hnot, -⟩ := notResponds tsel v s
    rw [hnot ha, readAs_complement_of_signed hs hlo hhi]

/-- Settles O35: the patterns are the numbers of the port's low `B` bits, on which the gates are the library's. -/
theorem logicAgreesWithBitVec : Obligations.LogicAgreesWithBitVec := by
  intro tsel v s d x y ha hb
  obtain ⟨-, hand, -⟩ := andResponds tsel v s
  obtain ⟨-, hor, -⟩ := orResponds tsel v s
  obtain ⟨-, hxor, -⟩ := xorResponds tsel v s
  obtain ⟨-, hnot, -⟩ := notResponds tsel v s
  rw [(hand ha hb).1, (hor ha hb).1, (hxor ha hb).1, hnot ha, ← readAs_toNat (descriptor_bits_pos tsel)]
  simp only [x, y, d, BitVec.toNat_and, BitVec.toNat_or, BitVec.toNat_xor, BitVec.toNat_not, toNat_ofInt_eq_patternOf, and_self]

end Logic

section Shifts

/-- A left shift of the pattern is the pattern of the product (R79). -/
theorem patternOf_mul_two_pow (B k : Nat) (a : Int) : patternOf B (a * (2 : Int) ^ k) = patternOf B a * 2 ^ k % 2 ^ B := by
  zify
  rw [patternOf_cast, patternOf_cast]
  exact ((Int.mod_modEq a _).mul_right _).symm

/-- A left shift read as the type is the wrap of the product (R82). -/
theorem readAs_shiftLeft (tsel : TypeSelector) (a : Int) (k : Nat) :
    readAs (descriptor tsel).signed (descriptor tsel).bits
      (patternOf (descriptor tsel).bits a * 2 ^ k % 2 ^ (descriptor tsel).bits) =
        wrapInto (a * (2 : Int) ^ k) (descriptor tsel).min (descriptor tsel).max := by
  rw [← patternOf_mul_two_pow, readAs_patternOf]

/-- The arithmetic path's bits in numbers: the fill lies above the shifted pattern, so OR adds it, and the sum is the pattern of
the quotient rounded down (R80). -/
theorem shifted_or_fill {B k : Nat} (hk : k ≤ B) {a : Int} (ha : InCoercionDomain B a) (hneg : a < 0) :
    ((patternOf B a / 2 ^ k ||| (2 ^ k - 1) * 2 ^ (B - k) : Nat) : Int) = a / (2 : Int) ^ k + (2 : Int) ^ B := by
  have hlt := div_two_pow_lt hk (patternOf_lt B a)
  have hB : (2 : Int) ^ B = (2 : Int) ^ (B - k) * (2 : Int) ^ k := by rw [← pow_add, Nat.sub_add_cancel hk]
  have hdiv : (a + (2 : Int) ^ B) / (2 : Int) ^ k = a / (2 : Int) ^ k + (2 : Int) ^ (B - k) := by
    rw [hB, Int.add_mul_ediv_right _ _ (two_pow_pos k).ne']
  rw [Nat.or_comm, Nat.mul_comm, ← Nat.two_pow_add_eq_or_of_lt hlt]
  push_cast [Nat.one_le_two_pow]
  rw [patternOf_of_neg ha hneg, hdiv, hB]
  ring

/-- The value of SHR for a signed type is the quotient rounded down, if that is not below the type's range (R80, R82). -/
theorem shiftRight_eq_ediv {tsel : TypeSelector} (hs : (descriptor tsel).signed = true) {a : Int} {k : Nat}
    (hk : k ≤ (descriptor tsel).bits) (ha : InCoercionDomain (descriptor tsel).bits a) (hhi : a ≤ (descriptor tsel).max)
    (hlo : (descriptor tsel).min ≤ a / (2 : Int) ^ k) :
    shiftRight (descriptor tsel) a (patternOf (descriptor tsel).bits a) k = a / (2 : Int) ^ k := by
  have hpow := two_pow_pos k
  have hmax := descriptor_max tsel
  have hmin := descriptor_min tsel
  rw [if_pos hs] at hmax hmin
  obtain hneg | h0 := Int.lt_or_le a 0
  · have hquot : a / (2 : Int) ^ k < 0 := Int.ediv_neg_of_neg_of_pos hneg hpow
    have hval := shifted_or_fill hk ha hneg
    have e := two_pow_cast (descriptor tsel).bits
    have e1 := two_pow_cast ((descriptor tsel).bits - 1)
    have h2 := two_pow_half (descriptor_bits_pos tsel)
    rw [shiftRight_of_arithmetic hs hneg, Nat.mod_eq_of_lt (by omega), readAs, if_pos ⟨rfl, by omega⟩]
    omega
  · have hle : a / (2 : Int) ^ k ≤ a := Int.ediv_le_self _ h0
    have hval : ((patternOf (descriptor tsel).bits a / 2 ^ k : Nat) : Int) = a / (2 : Int) ^ k := by
      push_cast
      rw [patternOf_of_nonneg ha h0]
    have hpat : patternOf (descriptor tsel).bits a / 2 ^ k % 2 ^ (descriptor tsel).bits =
        patternOf (descriptor tsel).bits (a / (2 : Int) ^ k) := by
      rw [← hval, patternOf]; norm_cast
    rw [shiftRight_of_logical (.inr h0), hpat, readAs_patternOf, wrapInto_of_mem hlo (hle.trans hhi)]

/-- Half of the coercion domain's negative part is the range of the signed type. -/
theorem min_le_ediv {tsel : TypeSelector} (hs : (descriptor tsel).signed = true) {a : Int} {k : Nat} (hk : 1 ≤ k)
    (ha : InCoercionDomain (descriptor tsel).bits a) : (descriptor tsel).min ≤ a / (2 : Int) ^ k := by
  have h2 := two_pow_half (descriptor_bits_pos tsel)
  have hpow : (2 : Int) ≤ 2 ^ k := by simpa using pow_le_pow_right₀ (show (1 : Int) ≤ 2 by decide) hk
  have hmul := Int.mul_le_mul_of_nonneg_left hpow (two_pow_pos ((descriptor tsel).bits - 1)).le
  rw [descriptor_min, if_pos hs, Int.le_ediv_iff_mul_le (two_pow_pos k)]
  linarith [ha.1]

theorem min_le_ediv_of_min_le {tsel : TypeSelector} (hs : (descriptor tsel).signed = true) {a : Int} (k : Nat)
    (hlo : (descriptor tsel).min ≤ a) : (descriptor tsel).min ≤ a / (2 : Int) ^ k := by
  have hmul := Int.mul_le_mul_of_nonneg_left (two_pow_pos k) (two_pow_pos ((descriptor tsel).bits - 1)).le
  rw [descriptor_min, if_pos hs] at hlo ⊢
  rw [Int.le_ediv_iff_mul_le (two_pow_pos k)]
  linarith

/-- SHR of an unsigned type is USHR: the value's sign is not looked at (R82). -/
theorem exec_shr_eq_ushr {tsel : TypeSelector} (v : Bool) {s : State} (hs : (descriptor tsel).signed = false)
    (ha : InCoercionDomain (descriptor tsel).bits s.a) (hb : 0 ≤ s.b) : exec (.shr tsel v) s = exec (.ushr tsel v) s := by
  have hlt := (Nat.div_le_self _ (2 ^ (s.b % ((descriptor tsel).bits : Int)).toNat)).trans_lt
    (patternOf_lt (descriptor tsel).bits s.a)
  rw [exec_shr_eq_counted, exec_ushr_eq_counted, counted_of_mem ha hb, counted_of_mem ha hb, shiftRight_of_logical (.inl hs), hs,
    readAs_false, Nat.mod_eq_of_lt hlt, Nat.shiftRight_eq_div_pow]

/-- Settles O40: the left shift as a product, the right shift as a quotient that lies in the type's range. -/
theorem shiftLaws : Obligations.ShiftLaws := by
  intro tsel v s d k ha hb
  have hk : k ≤ d.bits := (reducedCount_lt tsel s.b).le
  have hshr (hs : d.signed = true) (hhi : s.a ≤ d.max) (hlo : d.min ≤ s.a / (2 : Int) ^ k) :
      exec (.shr tsel v) s = .next { s with response := some (.rv (s.a / (2 : Int) ^ k)) } := by
    rw [exec_shr_eq_counted, counted_of_mem ha hb, shiftRight_eq_ediv hs hk ha hhi hlo, respond]
  obtain ⟨-, hshl, -, -⟩ := shlResponds tsel v s
  refine ⟨by rw [hshl ha hb, readAs_shiftLeft], fun hs hlo hhi => ?_, fun hs hbelow hk1 => ?_, fun hs => ?_⟩
  · exact hshr hs hhi (min_le_ediv_of_min_le hs k hlo)
  · exact hshr hs (hbelow.le.trans (descriptor_min_le_max tsel)) (min_le_ediv hs hk1 ha)
  · exact exec_shr_eq_ushr v hs ha hb

/-- The low bits of the port, read as a signed number, are a value in the range of a signed type. -/
theorem toInt_ofInt_of_mem_type {tsel : TypeSelector} (hs : (descriptor tsel).signed = true) {a : Int}
    (hlo : (descriptor tsel).min ≤ a) (hhi : a ≤ (descriptor tsel).max) : (BitVec.ofInt (descriptor tsel).bits a).toInt = a := by
  rw [descriptor_min, if_pos hs] at hlo
  rw [descriptor_max, if_pos hs] at hhi
  exact BitVec.toInt_ofInt_eq_self (descriptor_bits_pos tsel) hlo (by omega)

/-- Settles O41, with the arithmetic shift by its quotient. -/
theorem shiftAgreesWithBitVec : Obligations.ShiftAgreesWithBitVec := by
  intro tsel v s d k x ha hb
  have hB := descriptor_bits_pos tsel
  obtain ⟨-, hshl, -, -⟩ := shlResponds tsel v s
  obtain ⟨-, hushr, -, -⟩ := ushrResponds tsel v s
  obtain ⟨-, hshr, -, hunsigned⟩ := shiftLaws tsel v s ha hb
  have hlogical : exec (.ushr tsel v) s = .next { s with response := some (.rv (x >>> k).toNat) } := by
    rw [(hushr ha hb).1, BitVec.toNat_ushiftRight, toNat_ofInt_eq_patternOf, Nat.shiftRight_eq_div_pow]
  refine ⟨?left, hlogical, fun hs hlo hhi => ?arithmetic, fun hs => (hunsigned hs).trans hlogical⟩
  case left =>
    rw [hshl ha hb, ← readAs_toNat hB, BitVec.toNat_shiftLeft, toNat_ofInt_eq_patternOf, Nat.shiftLeft_eq]
  case arithmetic =>
    rw [hshr hs hlo hhi, BitVec.toInt_sshiftRight, toInt_ofInt_of_mem_type hs hlo hhi, Int.shiftRight_eq_div_pow, two_pow_cast]

end Shifts

section Rotates

variable {B k u : Nat}

/-- A left rotation moves bit `i` to `(i + k) emod B` (R85). -/
theorem testBit_rotateLeft_add_mod (hk : k ≤ B) (hu : u < 2 ^ B) {i : Nat} (hi : i < B) :
    (rotateLeft B k u).testBit ((i + k) % B) = u.testBit i := by
  rw [testBit_rotateLeft hk hu (Nat.mod_lt _ (by omega))]
  obtain hin | hout := Nat.lt_or_ge (i + k) B
  · rw [Nat.mod_eq_of_lt hin, if_neg (by omega), Nat.add_sub_cancel]
  · rw [Nat.mod_eq_sub_mod hout, Nat.mod_eq_of_lt (by omega), if_pos (by omega)]
    congr 1
    omega

/-- Rotating on by the rest of the width ends where it began (R87). -/
theorem rotateLeft_rotateLeft (hk : k ≤ B) (hu : u < 2 ^ B) : rotateLeft B (B - k) (rotateLeft B k u) = u := by
  refine eq_of_testBit_below (rotateLeft_lt ..) hu fun i hi => ?_
  have hround : ((i + k) % B + (B - k)) % B = i := by
    rw [Nat.mod_add_mod, Nat.add_assoc, Nat.add_sub_cancel' hk, Nat.add_mod_right, Nat.mod_eq_of_lt hi]
  calc (rotateLeft B (B - k) (rotateLeft B k u)).testBit i
      = (rotateLeft B (B - k) (rotateLeft B k u)).testBit (((i + k) % B + (B - k)) % B) := by rw [hround]
    _ = (rotateLeft B k u).testBit ((i + k) % B) :=
        testBit_rotateLeft_add_mod (Nat.sub_le B k) (rotateLeft_lt ..) (Nat.mod_lt _ (by omega))
    _ = u.testBit i := testBit_rotateLeft_add_mod hk hu hi

theorem rotateRight_rotateLeft (hk : k ≤ B) (hu : u < 2 ^ B) : rotateRight B k (rotateLeft B k u) = u := by
  rw [rotateRight_eq_rotateLeft hk, rotateLeft_rotateLeft hk hu]

theorem rotateLeft_rotateRight (hk : k ≤ B) (hu : u < 2 ^ B) : rotateLeft B k (rotateRight B k u) = u := by
  have h := rotateLeft_rotateLeft (Nat.sub_le B k) hu
  rwa [Nat.sub_sub_self hk, ← rotateRight_eq_rotateLeft hk] at h

theorem rotateLeft_zero (hu : u < 2 ^ B) : rotateLeft B 0 u = u := by
  rw [rotateLeft_eq_add (Nat.zero_le B) hu, pow_zero, Nat.mul_one, Nat.mod_eq_of_lt hu, Nat.sub_zero, Nat.div_eq_of_lt hu,
    Nat.add_zero]

theorem rotateRight_zero (hu : u < 2 ^ B) : rotateRight B 0 u = u := by
  have h := rotateLeft_rotateRight (Nat.zero_le B) hu
  rwa [rotateLeft_zero (rotateRight_lt (Nat.zero_le B) u)] at h

/-- The count of a rotated pattern is the count of its two parts (R87). -/
theorem popCount_rotateLeft (hk : k ≤ B) (hu : u < 2 ^ B) : popCount B (rotateLeft B k u) = popCount B u := by
  have hlow : ∀ j ∈ Finset.range k, ((rotateLeft B k u).testBit j).toNat = (u.testBit (B - k + j)).toNat := by
    intro j hj
    rw [Finset.mem_range] at hj
    rw [testBit_rotateLeft hk hu (by omega), if_pos hj]
  have hhigh : ∀ j ∈ Finset.range (B - k), ((rotateLeft B k u).testBit (k + j)).toNat = (u.testBit j).toNat := by
    intro j hj
    rw [Finset.mem_range] at hj
    rw [testBit_rotateLeft hk hu (by omega), if_neg (by omega), Nat.add_sub_cancel_left]
  calc popCount B (rotateLeft B k u)
      = ∑ j ∈ Finset.range (k + (B - k)), ((rotateLeft B k u).testBit j).toNat := by
        rw [popCount_eq_sum, Nat.add_sub_cancel' hk]
    _ = ∑ j ∈ Finset.range k, (u.testBit (B - k + j)).toNat + ∑ j ∈ Finset.range (B - k), (u.testBit j).toNat := by
        rw [Finset.sum_range_add, Finset.sum_congr rfl hlow, Finset.sum_congr rfl hhigh]
    _ = popCount B u := by
        rw [Nat.add_comm, ← Finset.sum_range_add, Nat.sub_add_cancel hk, popCount_eq_sum]

theorem popCount_rotateRight (hk : k ≤ B) (hu : u < 2 ^ B) : popCount B (rotateRight B k u) = popCount B u := by
  rw [rotateRight_eq_rotateLeft hk, popCount_rotateLeft (Nat.sub_le B k) hu]

section Responses

variable {tsel : TypeSelector} {s : State}

theorem exec_rol_of_mem (v : Bool) (ha : InCoercionDomain (descriptor tsel).bits s.a) (hb : 0 ≤ s.b) :
    exec (.rol tsel v) s =
      respond s (.rv (rotateLeft (descriptor tsel).bits (s.b % ((descriptor tsel).bits : Int)).toNat
        (patternOf (descriptor tsel).bits s.a))) := by
  rw [exec_rol_eq_counted, counted_of_mem ha hb]

theorem exec_ror_of_mem (v : Bool) (ha : InCoercionDomain (descriptor tsel).bits s.a) (hb : 0 ≤ s.b) :
    exec (.ror tsel v) s =
      respond s (.rv (rotateRight (descriptor tsel).bits (s.b % ((descriptor tsel).bits : Int)).toNat
        (patternOf (descriptor tsel).bits s.a))) := by
  rw [exec_ror_eq_counted, counted_of_mem ha hb]

theorem exec_popcnt_of_mem (v : Bool) (ha : InCoercionDomain (descriptor tsel).bits s.a) :
    exec (.popcnt tsel v) s = respond s (.rv (popCount (descriptor tsel).bits (patternOf (descriptor tsel).bits s.a))) := by
  rw [exec, execPopcnt, withPattern_of_mem ha]

/-- Settles O44: a right rotation by `k` is a left one by `B - k`. -/
theorem rotatesMoveBits : Obligations.RotatesMoveBits := by
  intro tsel v s B k ha hb
  have hk : k ≤ B := (reducedCount_lt tsel s.b).le
  have hu := patternOf_lt B s.a
  refine ⟨_, _, exec_rol_of_mem v ha hb, exec_ror_of_mem v ha hb, fun i hi => ⟨testBit_rotateLeft_add_mod hk hu hi, ?_⟩⟩
  rw [rotateRight_eq_rotateLeft hk, Nat.add_sub_assoc hk]
  exact testBit_rotateLeft_add_mod (Nat.sub_le B k) hu hi

/-- Settles O45: a rotated pattern is a pattern again, so it may be fed back, and the rotations are each other's inverse. -/
theorem rotateLaws : Obligations.RotateLaws := by
  intro tsel v s B k ha hb
  have hlt : k < B := reducedCount_lt tsel s.b
  have hk := hlt.le
  have hu := patternOf_lt B s.a
  have hl : rotateLeft B k (patternOf B s.a) < 2 ^ B := rotateLeft_lt ..
  have hr : rotateRight B k (patternOf B s.a) < 2 ^ B := rotateRight_lt hk _
  have hlu := patternOf_natCast hl
  have hru := patternOf_natCast hr
  have hundoL : rotateRight B k (patternOf B (rotateLeft B k (patternOf B s.a) : Nat)) = patternOf B s.a := by
    rw [hlu, rotateRight_rotateLeft hk hu]
  have hundoR : rotateLeft B k (patternOf B (rotateRight B k (patternOf B s.a) : Nat)) = patternOf B s.a := by
    rw [hru, rotateLeft_rotateRight hk hu]
  have hcountL : popCount B (patternOf B (rotateLeft B k (patternOf B s.a) : Nat)) = popCount B (patternOf B s.a) := by
    rw [hlu, popCount_rotateLeft hk hu]
  have hcountR : popCount B (patternOf B (rotateRight B k (patternOf B s.a) : Nat)) = popCount B (patternOf B s.a) := by
    rw [hru, popCount_rotateRight hk hu]
  refine ⟨_, _, exec_rol_of_mem v ha hb, exec_ror_of_mem v ha hb,
    (exec_ror_of_mem v (s := { s with a := (rotateLeft B k (patternOf B s.a) : Nat) }) (natCast_mem_coercionDomain hl) hb).trans
      (respond_rv_congr (congrArg _ hundoL)),
    (exec_rol_of_mem v (s := { s with a := (rotateRight B k (patternOf B s.a) : Nat) }) (natCast_mem_coercionDomain hr) hb).trans
      (respond_rv_congr (congrArg _ hundoR)),
    fun h0 => ?complement, fun h0 => ⟨?zeroL, ?zeroR⟩, ?popL, ?popR⟩
  case complement =>
    have hcount : (((B - k : Nat) : Int) % (B : Int)).toNat = B - k := by
      rw [← Int.natCast_mod, Int.toNat_natCast, Nat.mod_eq_of_lt (by omega)]
    rw [exec_ror_of_mem v (s := { s with b := (B - k : Nat) }) ha (Int.natCast_nonneg _), reply_respond, hcount,
      rotateRight_eq_rotateLeft (Nat.sub_le B k), Nat.sub_sub_self hk]
  case zeroL => exact congrArg _ ((congrArg (rotateLeft B · _) h0).trans (rotateLeft_zero hu))
  case zeroR => exact congrArg _ ((congrArg (rotateRight B · _) h0).trans (rotateRight_zero hu))
  case popL =>
    rw [exec_popcnt_of_mem v (natCast_mem_coercionDomain hl), exec_popcnt_of_mem v ha, reply_respond, reply_respond, hcountL]
  case popR =>
    rw [exec_popcnt_of_mem v (natCast_mem_coercionDomain hr), exec_popcnt_of_mem v ha, reply_respond, reply_respond, hcountR]

/-- Settles O46: the library reduces the count modulo the width and joins the same two parts. -/
theorem rotateAgreesWithBitVec : Obligations.RotateAgreesWithBitVec := by
  intro tsel v s B x ha hb
  have hcount : (s.b % (B : Int)).toNat = s.b.toNat % B := Int.toNat_emod hb (Int.natCast_nonneg B)
  have hk : s.b.toNat % B ≤ B := (Nat.mod_lt _ (descriptor_bits_pos tsel)).le
  have hu := patternOf_lt B s.a
  have hleft : rotateLeft B (s.b % (B : Int)).toNat (patternOf B s.a) = (x.rotateLeft s.b.toNat).toNat := by
    rw [hcount, BitVec.toNat_rotateLeft, toNat_ofInt_eq_patternOf, Nat.shiftLeft_eq, Nat.shiftRight_eq_div_pow,
      rotate_parts_or_eq_add hk hu, rotateLeft_eq_add hk hu]
  have hright : rotateRight B (s.b % (B : Int)).toNat (patternOf B s.a) = (x.rotateRight s.b.toNat).toNat := by
    have hor := rotate_parts_or_eq_add (Nat.sub_le B (s.b.toNat % B)) hu
    rw [Nat.sub_sub_self hk] at hor
    rw [hcount, BitVec.toNat_rotateRight, toNat_ofInt_eq_patternOf, Nat.shiftLeft_eq, Nat.shiftRight_eq_div_pow, Nat.or_comm,
      hor, rotateRight_eq_add hk hu, Nat.add_comm]
  exact ⟨(exec_rol_of_mem v ha hb).trans (respond_rv_congr (congrArg _ hleft)),
    (exec_ror_of_mem v ha hb).trans (respond_rv_congr (congrArg _ hright))⟩

end Responses

end Rotates

section Bits

/-- A pattern and its complement have each position's 1 between them (R94). -/
theorem popCount_add_complement {B u : Nat} (hu : u < 2 ^ B) : popCount B u + popCount B (2 ^ B - 1 - u) = B := by
  have hbit : ∀ i ∈ Finset.range B, (u.testBit i).toNat + ((2 ^ B - 1 - u).testBit i).toNat = 1 := by
    intro i hi
    rw [testBit_complement hu, decide_eq_true (Finset.mem_range.1 hi)]
    cases u.testBit i <;> rfl
  rw [popCount_eq_sum, popCount_eq_sum, ← Finset.sum_add_distrib, Finset.sum_congr rfl hbit]
  simp

theorem exec_getbit_of_mem {tsel : TypeSelector} {s : State} (v : Bool) (ha : InCoercionDomain (descriptor tsel).bits s.a)
    (hb : 0 ≤ s.b) :
    exec (.getbit tsel v) s =
      respond s (.rv (((patternOf (descriptor tsel).bits s.a).testBit s.b.toNat).toNat : Nat)) := by
  rw [exec_getbit_eq_indexed, indexed_of_mem ha hb, bitAt_eq_testBit]

/-- Writing one bit leaves the others, whether or not the index is inside the width (R94). -/
theorem testBit_writeBit_of_ne {B u j : Nat} {n : Int} (hB : 1 ≤ B) (hn : 0 ≤ n) (hne : (j : Int) ≠ n) (v : Bool) :
    (writeBit B u n.toNat v).testBit j = u.testBit j := by
  obtain hin | hout := Nat.lt_or_ge n.toNat B
  · rw [testBit_writeBit hin, if_neg (by omega)]
  · rw [writeBit_of_le hB hout]

/-- SETBIT's result may be fed back, and its pattern is the written one (R94). -/
theorem exists_setbit_of_mem {tsel : TypeSelector} {s : State} (ha : InCoercionDomain (descriptor tsel).bits s.a) (hb : 0 ≤ s.b)
    (v : Bool) :
    ∃ y, exec (.setbit tsel v) s = respond s (.rv y) ∧ InCoercionDomain (descriptor tsel).bits y ∧
      patternOf (descriptor tsel).bits y =
        writeBit (descriptor tsel).bits (patternOf (descriptor tsel).bits s.a) s.b.toNat v :=
  ⟨_, exec_setbit_of_mem ha hb v,
    readAs_mem_coercionDomain _ (writeBit_lt (descriptor_bits_pos tsel) (patternOf_lt _ _) v)⟩

/-- NOT's result may be fed back, and its pattern is the complement. -/
theorem exists_not_of_mem {tsel : TypeSelector} {s : State} (v : Bool) (ha : InCoercionDomain (descriptor tsel).bits s.a) :
    ∃ n, exec (.not tsel v) s = respond s (.rv n) ∧ InCoercionDomain (descriptor tsel).bits n ∧
      patternOf (descriptor tsel).bits n = 2 ^ (descriptor tsel).bits - 1 - patternOf (descriptor tsel).bits s.a :=
  ⟨_, execNot_of_mem ha, readAs_mem_coercionDomain _ (complement_lt _ _)⟩

/-- Settles O50: what SETBIT and NOT answer has the written and the complemented pattern, whose bits the later commands read. -/
theorem bitLaws : Obligations.BitLaws := by
  intro tsel v w s j B ha hb
  have hB : 1 ≤ B := descriptor_bits_pos tsel
  have hu := patternOf_lt B s.a
  obtain ⟨y, hset, hy, hyu⟩ := exists_setbit_of_mem ha hb v
  obtain ⟨n, hnot, hn, hnu⟩ := exists_not_of_mem w ha
  have hread : s.b ≤ (B : Int) - 1 → (patternOf B y).testBit s.b.toNat = v := fun hin => by
    rw [hyu, testBit_writeBit_toNat hb hin, if_pos (Int.toNat_of_nonneg hb)]
  have hother : (j : Int) ≠ s.b → (patternOf B y).testBit j = (patternOf B s.a).testBit j := fun hne => by
    rw [hyu, testBit_writeBit_of_ne hB hb hne]
  have habove : B ≤ j → ((patternOf B s.a).testBit j).toNat = 0 := fun hj => by
    rw [testBit_eq_false_of_lt hu hj, Bool.toNat_false]
  have hcounts : popCount B (patternOf B s.a) + popCount B (patternOf B n) = B := by
    rw [hnu, popCount_add_complement hu]
  exact ⟨y, n, _, _, _, hset, hy,
    fun hin => (exec_getbit_of_mem w (s := { s with a := y }) hy hb).trans
      (respond_rv_congr (congrArg (fun b : Bool => (b.toNat : Int)) (hread hin))),
    exec_getbit_of_mem w ha (Int.natCast_nonneg j), habove,
    fun hne => (exec_getbit_of_mem w (s := { s with a := y, b := j }) hy (Int.natCast_nonneg j)).trans
      (respond_rv_congr (congrArg (fun b : Bool => (b.toNat : Int)) (hother hne))),
    hnot, hn, exec_popcnt_of_mem w ha, exec_popcnt_of_mem w hn, hcounts⟩

end Bits

end Sys2Proof.EngineLawProofs

/-! How the host writes commands: D0's calls, the names of the assembly text and the assembler's output (30_encoding.md R48, R49,
R51, R56, R57). -/

namespace Sys2Proof.CallProofs

open Sys2Proof.Machine Sys2Proof.Safety Sys2Proof.Laws Sys2Proof.CommandProofs

section Selectors

/-- `T(bits, signed)` has that width and that signedness (R49). -/
theorem descriptor_selectorOf (w : Width) (signed : Bool) :
    (selectorOf w signed).toNat ≤ 7 ∧ (descriptor (selectorOf w signed)).bits = w.bits ∧
      (descriptor (selectorOf w signed)).signed = signed := by
  cases w <;> cases signed <;> decide

/-- A known selector is given by its width and signedness. -/
theorem eq_selectorOf {w : Width} {signed : Bool} {t : TypeSelector} (ht : t.toNat ≤ 7) (hbits : (descriptor t).bits = w.bits)
    (hsigned : (descriptor t).signed = signed) : t = selectorOf w signed := by
  revert t
  cases w <;> cases signed <;> decide

theorem descriptor_selectorOfName (n : TypeName) :
    (selectorOfName (some n)).toNat ≤ 7 ∧ (descriptor (selectorOfName (some n))).name = n := by
  cases n <;> decide

/-- A known selector is given by its name. -/
theorem eq_selectorOfName {t : TypeSelector} (ht : t.toNat ≤ 7) : t = selectorOfName (some (descriptor t).name) := by
  revert t; decide

theorem descriptor_bits_selectorOf_congr (w : Width) (signed signed' : Bool) :
    (descriptor (selectorOf w signed)).bits = (descriptor (selectorOf w signed')).bits := by
  obtain ⟨-, h, -⟩ := descriptor_selectorOf w signed
  obtain ⟨-, h', -⟩ := descriptor_selectorOf w signed'
  rw [h, h']

end Selectors

section Calls

/-- Settles O51: these eight read no more of the descriptor than its width. -/
theorem signednessIgnoredWhereStarred : Obligations.SignednessIgnoredWhereStarred := by
  intro w v s
  have hbits := descriptor_bits_selectorOf_congr w true false
  refine ⟨?_, ?_, ?_, ?_, ?_, ?_, ?_, ?_⟩
  · simp only [exec, execAnd, logicGate, hbits]
  · simp only [exec, execOr, logicGate, hbits]
  · simp only [exec, execXor, logicGate, hbits]
  · simp only [exec, execUshr, hbits]
  · simp only [exec, execRol, hbits]
  · simp only [exec, execRor, hbits]
  · simp only [exec, execPopcnt, hbits]
  · simp only [exec, execGetbit, hbits]

theorem decode_command_cw (c : Call) : ∃ i : Instr, decode c.command.cw = .command i ∧ i.canonical = true := by
  cases c <;> exact ⟨_, decode_encode _, rfl⟩

/-- Settles O52: a row's selector is the one of its width and signedness, or of its name; the words are encodings. -/
theorem callsBecomeCommands : Obligations.CallsBecomeCommands := by
  refine ⟨fun w signed => ⟨_, descriptor_selectorOf w signed⟩, fun n => ⟨_, descriptor_selectorOfName n⟩,
    fun w signed t a b v ht hbits hsigned => ?rows, fun name t a hname => ?named, decode_command_cw⟩
  case rows =>
    obtain rfl := eq_selectorOf ht hbits hsigned
    refine ⟨rfl, rfl, rfl, rfl, fun hs => ?_⟩
    subst hs
    exact ⟨rfl, rfl, rfl, rfl, rfl, rfl, rfl, rfl⟩
  case named =>
    have ht : t = selectorOfName name := by
      obtain ⟨n, rfl, h7, rfl⟩ | ⟨rfl, rfl⟩ := hname
      · exact eq_selectorOfName h7
      · rfl
    subst ht
    exact ⟨rfl, rfl, rfl, rfl, rfl⟩

end Calls

section Mnemonics

theorem opcode_lt_of_mem_mnemonicTable : ∀ e ∈ mnemonicTable, e.2.1 < 17 := by decide

theorem setbit_of_mem_mnemonicTable : ∀ e ∈ mnemonicTable, e.2.2 = .setbitOperands → e.2.1 = 11 := by decide

/-- Settles O53: the word the assembler builds has the code of the mnemonic, and decodes to it. -/
theorem assemblerEmitsTheLine : Obligations.AssemblerEmitsTheLine := by
  intro m op form tsel a b hm
  have hop : op < 17 := opcode_lt_of_mem_mnemonicTable _ hm
  obtain ⟨i, hi⟩ := Option.ne_none_iff_exists'.1 (mt (instrOfCode_eq_none_iff op tsel false).1 (Nat.not_le.2 hop))
  have hdec := decode_controlWordOf hi
  refine ⟨i, hi, ?_, ?_, ?_, ?_⟩
  · rintro rfl
    exact ⟨_, rfl, hdec, rfl, rfl⟩
  · rintro rfl
    exact ⟨_, rfl, hdec, rfl, rfl⟩
  · rintro rfl
    exact ⟨_, rfl, hdec, rfl, rfl⟩
  · rintro rfl v
    obtain rfl : op = 11 := setbit_of_mem_mnemonicTable _ hm rfl
    refine ⟨⟨controlWordOf 11 tsel v, a, b⟩, ?_, decode_controlWordOf rfl, rfl, rfl⟩
    cases v <;> rfl

/-- The table's mnemonics under their operand forms. -/
theorem form_of_mem_mnemonicTable : ∀ e ∈ mnemonicTable,
    (e.2.2 = .twoOperands ∧ (e.1, e.2.1) ∈ [("AND", 0), ("OR", 1), ("XOR", 2), ("SHL", 4), ("SHR", 5), ("USHR", 6), ("ROL", 7),
      ("ROR", 8), ("GETBIT", 10)]) ∨
    (e.2.2 = .oneOperand ∧
      (e.1, e.2.1) ∈ [("NOT", 3), ("POPCNT", 9), ("CHKOVF", 12), ("CLAMP", 13), ("WRAP", 14), ("CVT", 15)]) ∨
    (e.2.2 = .setbitOperands ∧ e.1 = "SETBIT" ∧ e.2.1 = 11) ∨ (e.2.2 = .noOperands ∧ e.1 = "LOOKUP" ∧ e.2.1 = 16) := by
  decide

theorem two_operands_mem_mnemonicTable : ∀ e ∈ [("AND", 0), ("OR", 1), ("XOR", 2), ("SHL", 4), ("SHR", 5), ("USHR", 6),
    ("ROL", 7), ("ROR", 8), ("GETBIT", 10)], (e.1, e.2, AsmForm.twoOperands) ∈ mnemonicTable := by decide

theorem one_operand_mem_mnemonicTable : ∀ e ∈ [("NOT", 3), ("POPCNT", 9), ("CHKOVF", 12), ("CLAMP", 13), ("WRAP", 14),
    ("CVT", 15)], (e.1, e.2, AsmForm.oneOperand) ∈ mnemonicTable := by decide

/-- Settles O54, row by row in both directions. -/
theorem namesOfTheNotation : Obligations.NamesOfTheNotation := by
  refine ⟨fun m op form => ⟨form_of_mem_mnemonicTable (m, op, form), ?_⟩, by decide, by decide, by decide⟩
  rintro (⟨rfl, h⟩ | ⟨rfl, h⟩ | ⟨rfl, rfl, rfl⟩ | ⟨rfl, rfl, rfl⟩)
  · exact two_operands_mem_mnemonicTable _ h
  · exact one_operand_mem_mnemonicTable _ h
  · decide
  · decide

end Mnemonics

end Sys2Proof.CallProofs

/-! The assembler on text: the integer literals, and whole lines with their spaces and comment (30_encoding.md R56; log 17). -/

namespace Sys2Proof.TextProofs

open Sys2Proof.Machine Sys2Proof.CallProofs

section Literals

theorem digitsValue_append (base : Nat) (cs ds : List Char) (acc : Nat) :
    digitsValue base (cs ++ ds) acc = (digitsValue base cs acc).bind (digitsValue base ds) := by
  induction cs generalizing acc with
  | nil => rfl
  | cons c cs ih => simp only [List.cons_append, digitsValue, Option.bind_assoc, ih]

/-- A way of writing digits, read in a base: each digit's character has the digit's value. -/
def ReadsDigits (base : Nat) (write : Char → Char) : Prop :=
  ∀ d, d < base → digitValue base (write d.digitChar) = some d

theorem readsDigits_id {base : Nat} (h : base ≤ 16) : ReadsDigits base id := by
  unfold ReadsDigits
  interval_cases base <;> decide

theorem readsDigits_toUpper : ReadsDigits 16 Char.toUpper := by
  unfold ReadsDigits; decide

/-- The digits of a number are read as the number: the last digit is the remainder, and what comes before it the quotient. -/
theorem digitsValue_toDigits {base : Nat} (hb : 1 < base) {write : Char → Char} (hw : ReadsDigits base write) (n : Nat) :
    digitsValue base ((Nat.toDigits base n).map write) 0 = some n := by
  induction n using Nat.strong_induction_on with
  | _ n ih =>
    obtain hlt | hge := Nat.lt_or_ge n base
    · simp [Nat.toDigits_of_lt_base hlt, digitsValue, hw n hlt]
    · have hmod := hw (n % base) (Nat.mod_lt n (by omega))
      have hdiv := ih (n / base) (Nat.div_lt_self (by omega) hb)
      rw [Nat.toDigits_of_base_le hb hge, List.map_append, digitsValue_append, hdiv]
      simp [digitsValue, hmod, Nat.div_add_mod']

theorem numberValue_toDigits {base : Nat} (hb : 1 < base) {write : Char → Char} (hw : ReadsDigits base write) (n : Nat) :
    numberValue base ((Nat.toDigits base n).map write) = some n := by
  rw [numberValue, if_neg (by simp), digitsValue_toDigits hb hw]

theorem numberValue_toDigits_id {base : Nat} (hb : 1 < base) (h : base ≤ 16) (n : Nat) :
    numberValue base (Nat.toDigits base n) = some n := by
  simpa using numberValue_toDigits hb (readsDigits_id h) n

/-- A text of decimal digits has none of the marks of the other forms. -/
theorem literalValue_of_digits {cs : List Char} (h : ∀ c ∈ cs, c.isDigit) :
    literalValue cs = (numberValue 10 cs).map fun n : Nat => (n : Int) := by
  unfold literalValue
  split
  case h_1 => exact absurd (h 'x' (by simp)) (by decide)
  case h_2 => exact absurd (h 'b' (by simp)) (by decide)
  case h_3 => exact absurd (h '-' (by simp)) (by decide)
  case h_4 => rfl

/-- Settles O55, by the digits of a number in each of the three bases. -/
theorem literalsAreRead : Obligations.LiteralsAreRead := by
  intro n
  have hdec := numberValue_toDigits_id (base := 10) (by decide) (by decide) n
  have hhex := numberValue_toDigits_id (base := 16) (by decide) (by decide) n
  have hupper := numberValue_toDigits (base := 16) (by decide) readsDigits_toUpper n
  have hbin := numberValue_toDigits_id (base := 2) (by decide) (by decide) n
  refine ⟨?_, ?_, ?_, ?_, ?_⟩
  · rw [literalValue_of_digits fun c hc => Nat.isDigit_of_mem_toDigits (by decide) (by decide) hc, hdec, Option.map_some]
  · rw [literalValue, hdec, Option.map_some]
  · rw [literalValue, hupper, Option.map_some]
  · rw [literalValue, hhex, Option.map_some]
  · rw [literalValue, hbin, Option.map_some]

end Literals

section LiteralShape

/-- A character that has no part in the layout of a line. -/
def Plain (c : Char) : Prop := c ≠ ' ' ∧ c ≠ ',' ∧ c ≠ '-'

theorem plain_of_digitValue {base : Nat} {c : Char} {d : Nat} (h : digitValue base c = some d) : Plain c := by
  refine ⟨?_, ?_, ?_⟩ <;> rintro rfl <;> simp [digitValue] at h

theorem plain_of_digitsValue {base : Nat} {cs : List Char} {acc n : Nat} (h : digitsValue base cs acc = some n) :
    ∀ c ∈ cs, Plain c := by
  induction cs generalizing acc with
  | nil => simp
  | cons c cs ih =>
    obtain ⟨d, hd, hrest⟩ := Option.bind_eq_some_iff.1 h
    exact List.forall_mem_cons.2 ⟨plain_of_digitValue hd, ih hrest⟩

theorem plain_of_numberValue {base : Nat} {cs : List Char} {n : Nat} (h : numberValue base cs = some n) :
    cs ≠ [] ∧ ∀ c ∈ cs, Plain c := by
  rw [numberValue] at h
  split at h
  · cases h
  · exact ⟨by simpa using ‹¬cs.isEmpty = true›, plain_of_digitsValue h⟩

/-- A literal is a text of plain characters, after a minus or not. -/
theorem literal_shape {cs : List Char} {a : Int} (h : literalValue cs = some a) :
    ∃ ds, (cs = ds ∨ cs = '-' :: ds) ∧ ds ≠ [] ∧ ∀ c ∈ ds, Plain c := by
  have hmark {base : Nat} {x : Char} {ds : List Char} {n : Nat} (hx : Plain x) (hn : numberValue base ds = some n) :
      ∀ c ∈ '0' :: x :: ds, Plain c :=
    List.forall_mem_cons.2 ⟨by unfold Plain; decide, List.forall_mem_cons.2 ⟨hx, (plain_of_numberValue hn).2⟩⟩
  unfold literalValue at h
  split at h <;> obtain ⟨n, hn, -⟩ := Option.map_eq_some_iff.1 h
  case h_1 => exact ⟨_, .inl rfl, by simp, hmark (by unfold Plain; decide) hn⟩
  case h_2 => exact ⟨_, .inl rfl, by simp, hmark (by unfold Plain; decide) hn⟩
  case h_3 => exact ⟨_, .inr rfl, plain_of_numberValue hn⟩
  case h_4 => exact ⟨_, .inl rfl, plain_of_numberValue hn⟩

/-- A literal is one piece of an operand list. -/
theorem literal_no_comma {cs : List Char} {a : Int} (h : literalValue cs = some a) : ∀ c ∈ cs, c ≠ ',' := by
  obtain ⟨ds, rfl | rfl, -, hds⟩ := literal_shape h
  · exact fun c hc => (hds c hc).2.1
  · exact List.forall_mem_cons.2 ⟨by decide, fun c hc => (hds c hc).2.1⟩

end LiteralShape

section Comments

/-- A text in which no comment begins, whatever follows it. -/
def CommentFree (cs : List Char) : Prop := ∀ rest, stripComment (cs ++ rest) = cs ++ stripComment rest

theorem commentFree_nil : CommentFree [] := fun _ => rfl

theorem CommentFree.append {cs ds : List Char} (hc : CommentFree cs) (hd : CommentFree ds) : CommentFree (cs ++ ds) := by
  intro rest
  rw [List.append_assoc, hc, hd, List.append_assoc]

theorem CommentFree.cons {c : Char} (h : c ≠ '-') {cs : List Char} (hc : CommentFree cs) : CommentFree (c :: cs) := by
  intro rest
  rw [List.cons_append, stripComment, hc, List.cons_append]
  exact fun _ h' => absurd h' h

theorem commentFree_of_no_minus {cs : List Char} (h : ∀ c ∈ cs, c ≠ '-') : CommentFree cs := by
  induction cs with
  | nil => exact commentFree_nil
  | cons c cs ih =>
    rw [List.forall_mem_cons] at h
    exact .cons h.1 (ih h.2)

/-- A literal's minus is followed by a digit, so it opens no comment. -/
theorem commentFree_literal {cs : List Char} {a : Int} (h : literalValue cs = some a) : CommentFree cs := by
  obtain ⟨ds, hcs, hne, hds⟩ := literal_shape h
  have hfree : CommentFree ds := commentFree_of_no_minus fun c hc => (hds c hc).2.2
  obtain rfl | rfl := hcs
  · exact hfree
  · obtain ⟨d, ds, rfl⟩ := List.exists_cons_of_ne_nil hne
    intro rest
    rw [List.cons_append, stripComment, hfree, List.cons_append, List.cons_append, List.cons_append]
    rintro tail - htail
    exact (hds d List.mem_cons_self).2.2 (List.cons.inj htail).1

end Comments

section Spaces

/-- A text that begins and ends with a character that is no space. -/
def Trimmed (cs : List Char) : Prop := (∃ c ds, cs = c :: ds ∧ c ≠ ' ') ∧ ∃ ds c, cs = ds ++ [c] ∧ c ≠ ' '

theorem Trimmed.append {cs ds : List Char} (hc : Trimmed cs) (hd : Trimmed ds) (mid : List Char) :
    Trimmed (cs ++ mid ++ ds) := by
  obtain ⟨⟨c, cs', rfl, hne⟩, -⟩ := hc
  obtain ⟨-, ds', d, rfl, hne'⟩ := hd
  exact ⟨⟨c, _, rfl, hne⟩, _, d, (List.append_assoc ..).symm, hne'⟩

theorem trimmed_of_no_space {cs : List Char} (hne : cs ≠ []) (h : ∀ c ∈ cs, c ≠ ' ') : Trimmed cs := by
  constructor
  · obtain ⟨c, ds, rfl⟩ := List.exists_cons_of_ne_nil hne
    exact ⟨c, ds, rfl, h c List.mem_cons_self⟩
  · exact ⟨_, _, (List.dropLast_append_getLast hne).symm, h _ (List.getLast_mem hne)⟩

theorem trimmed_literal {cs : List Char} {a : Int} (h : literalValue cs = some a) : Trimmed cs := by
  obtain ⟨ds, hcs, hne, hds⟩ := literal_shape h
  obtain rfl | rfl := hcs
  · exact trimmed_of_no_space hne fun c hc => (hds c hc).1
  · exact trimmed_of_no_space (by simp) (List.forall_mem_cons.2 ⟨by decide, fun c hc => (hds c hc).1⟩)

/-- Spaces around a trimmed text are cut off. -/
theorem trimSpaces_of_trimmed {cs pre post : List Char} (h : Trimmed cs) (hpre : ∀ c ∈ pre, c = ' ')
    (hpost : ∀ c ∈ post, c = ' ') : trimSpaces (pre ++ cs ++ post) = cs := by
  obtain ⟨⟨c, ds, hcs, hc⟩, es, e, hcs', he⟩ := h
  have hfront : (pre ++ cs ++ post).dropWhile (· = ' ') = cs ++ post := by
    rw [List.append_assoc, List.dropWhile_append_of_pos (by simpa using hpre), hcs, List.cons_append,
      List.dropWhile_cons_of_neg (by simpa using hc)]
  have hback : (cs ++ post).reverse.dropWhile (· = ' ') = cs.reverse := by
    rw [List.reverse_append, List.dropWhile_append_of_pos (by simpa using hpost), hcs', List.reverse_append,
      List.reverse_singleton, List.singleton_append, List.dropWhile_cons_of_neg (by simpa using he)]
  rw [trimSpaces, hfront, hback, List.reverse_reverse]

end Spaces

section Operands

/-- The operands of a line as R56 writes them: a space before the first, a comma and a space before each other. -/
def operandText : List (List Char) → List Char
  | [] => []
  | p :: ps => ' ' :: (p ++ ps.flatMap fun q => ',' :: ' ' :: q)

/-- Texts and the values they are read as. -/
abbrev ReadAsValues : List (List Char) → List Int → Prop := List.Forall₂ fun p v => literalValue p = some v

theorem splitCommas_of_no_comma {cs : List Char} (h : ∀ c ∈ cs, c ≠ ',') : splitCommas cs = [cs] := by
  induction cs with
  | nil => rfl
  | cons c cs ih =>
    rw [List.forall_mem_cons] at h
    rw [splitCommas, ih h.2]
    exact fun hc => absurd hc h.1

theorem splitCommas_append_comma {cs : List Char} (h : ∀ c ∈ cs, c ≠ ',') (rest : List Char) :
    splitCommas (cs ++ ',' :: rest) = cs :: splitCommas rest := by
  induction cs with
  | nil => rfl
  | cons c cs ih =>
    rw [List.forall_mem_cons] at h
    rw [List.cons_append, splitCommas, ih h.2]
    exact fun hc => absurd hc h.1

/-- The pieces between the commas are the operands with the spaces before them. -/
theorem splitCommas_operands {ps : List (List Char)} {p : List Char} (hp : ∀ c ∈ p, c ≠ ',')
    (hps : ∀ q ∈ ps, ∀ c ∈ q, c ≠ ',') :
    splitCommas (p ++ ps.flatMap fun q => ',' :: ' ' :: q) = p :: ps.map (' ' :: ·) := by
  induction ps generalizing p with
  | nil => simpa using splitCommas_of_no_comma hp
  | cons q qs ih =>
    rw [List.forall_mem_cons] at hps
    have hq : ∀ c ∈ ' ' :: q, c ≠ ',' := List.forall_mem_cons.2 ⟨by decide, hps.1⟩
    rw [List.flatMap_cons, List.cons_append, splitCommas_append_comma hp, ih hq hps.2, List.map_cons]

theorem mapM_eq_some_of_forall₂ {α β : Type} {f : α → Option β} {as : List α} {bs : List β}
    (h : List.Forall₂ (fun a b => f a = some b) as bs) : as.mapM f = some bs := by
  induction h with
  | nil => rfl
  | cons hab _ ih => simp [hab, ih]

theorem forall_mem_of_readAsValues {P : List Char → Prop} (hP : ∀ {p v}, literalValue p = some v → P p) {ps : List (List Char)}
    {vs : List Int} (h : ReadAsValues ps vs) : ∀ p ∈ ps, P p := by
  induction h with
  | nil => simp
  | cons hv _ ih => exact List.forall_mem_cons.2 ⟨hP hv, ih⟩

theorem trimmed_operands {ps : List (List Char)} {p : List Char} (hp : Trimmed p) (hps : ∀ q ∈ ps, Trimmed q) :
    Trimmed (p ++ ps.flatMap fun q => ',' :: ' ' :: q) := by
  induction ps generalizing p with
  | nil => simpa using hp
  | cons q qs ih =>
    rw [List.forall_mem_cons] at hps
    simpa using ih (hp.append hps.1 [',', ' ']) hps.2

/-- The operand reader undoes the writing of the operands. -/
theorem operandValues_operandText {ps : List (List Char)} {vs : List Int} (h : ReadAsValues ps vs) :
    operandValues (trimSpaces (operandText ps)) = some vs := by
  cases h with
  | nil => rfl
  | @cons p v ps vs hp hps =>
    have htrim : trimSpaces (operandText (p :: ps)) = p ++ ps.flatMap fun q => ',' :: ' ' :: q := by
      simpa [operandText] using trimSpaces_of_trimmed (pre := [' ']) (post := [])
        (trimmed_operands (trimmed_literal hp) (forall_mem_of_readAsValues trimmed_literal hps)) (by simp) (by simp)
    have hsplit := splitCommas_operands (literal_no_comma hp) (forall_mem_of_readAsValues literal_no_comma hps)
    have hne : (p ++ ps.flatMap fun q => ',' :: ' ' :: q) ≠ [] := by
      obtain ⟨⟨c, ds, rfl, -⟩, -⟩ := trimmed_literal hp
      simp
    have hfirst : literalValue (trimSpaces p) = some v := by
      simpa [hp] using congrArg literalValue
        (trimSpaces_of_trimmed (pre := []) (post := []) (trimmed_literal hp) (by simp) (by simp))
    have hothers : List.Forall₂ (fun q w => literalValue (trimSpaces q) = some w) (ps.map (' ' :: ·)) vs := by
      rw [List.forall₂_map_left_iff]
      refine List.Forall₂.imp (fun q w hq => ?_) hps
      simpa [hq] using congrArg literalValue
        (trimSpaces_of_trimmed (pre := [' ']) (post := []) (trimmed_literal hq) (by simp) (by simp))
    rw [htrim, operandValues, if_neg (by simpa using hne), hsplit]
    exact mapM_eq_some_of_forall₂ (.cons hfirst hothers)

theorem commentFree_operandText {ps : List (List Char)} {vs : List Int} (h : ReadAsValues ps vs) :
    CommentFree (operandText ps) := by
  have hothers {ps : List (List Char)} (hps : ∀ q ∈ ps, CommentFree q) :
      CommentFree (ps.flatMap fun q => ',' :: ' ' :: q) := by
    induction ps with
    | nil => exact commentFree_nil
    | cons q qs ih =>
      rw [List.forall_mem_cons] at hps
      exact .append (.cons (by decide) (.cons (by decide) hps.1)) (ih hps.2)
  cases h with
  | nil => exact commentFree_nil
  | cons hp hps =>
    exact .cons (by decide) (.append (commentFree_literal hp) (hothers (forall_mem_of_readAsValues commentFree_literal hps)))

end Operands

section Lines

/-- A mnemonic or a type name: no character of it has a part in the layout of a line. -/
def NameChars (cs : List Char) : Prop := cs ≠ [] ∧ ∀ c ∈ cs, c ≠ ' ' ∧ c ≠ '.' ∧ c ≠ '-'

theorem nameChars_of_mem_mnemonicTable : ∀ e ∈ mnemonicTable, NameChars e.1.toList := by
  simp [mnemonicTable, NameChars]

theorem nameChars_of_mem_typeTable : ∀ e ∈ typeTable, NameChars e.1.toList := by
  simp [typeTable, NameChars]

/-- A search by name finds the row of that name, if no name stands twice. -/
theorem find?_name_eq_some {β : Type} {table : List (String × β)} (hnodup : (table.map fun m => m.1).Nodup)
    {e : String × β} (he : e ∈ table) : table.find? (fun m => m.1.toList = e.1.toList) = some e := by
  induction table with
  | nil => cases he
  | cons row rows ih =>
    rw [List.map_cons, List.nodup_cons] at hnodup
    obtain rfl | he := List.mem_cons.1 he
    · exact List.find?_cons_of_pos (by simp)
    · have hne : row.1 ≠ e.1 := fun h => hnodup.1 (h ▸ List.mem_map_of_mem he)
      rw [List.find?_cons_of_neg (by simpa [String.toList_inj] using hne), ih hnodup.2 he]

/-- A line `MNEMONIC.TYPE` with operands, before its comment. -/
def lineText (m ty : String) (ps : List (List Char)) : List Char := m.toList ++ '.' :: ty.toList ++ operandText ps

variable {m ty : String} {op : Nat} {form : AsmForm} {tsel : TypeSelector} {ps : List (List Char)} {vs : List Int}

theorem commentFree_lineText (hm : NameChars m.toList) (ht : NameChars ty.toList) (h : ReadAsValues ps vs) :
    CommentFree (lineText m ty ps) := by
  have hname {cs : List Char} (hcs : NameChars cs) : CommentFree cs :=
    commentFree_of_no_minus fun c hc => (hcs.2 c hc).2.2
  exact .append (.append (hname hm) (.cons (by decide) (hname ht))) (commentFree_operandText h)

theorem trimmed_lineText (hm : NameChars m.toList) (ht : NameChars ty.toList) (h : ReadAsValues ps vs) :
    Trimmed (lineText m ty ps) := by
  have hname {cs : List Char} (hcs : NameChars cs) : Trimmed cs := trimmed_of_no_space hcs.1 fun c hc => (hcs.2 c hc).1
  have hhead : Trimmed (m.toList ++ '.' :: ty.toList) := by
    simpa using (hname hm).append (hname ht) ['.']
  cases h with
  | nil => simpa [lineText, operandText] using hhead
  | cons hp hps =>
    simpa [lineText, operandText] using
      hhead.append (trimmed_operands (trimmed_literal hp) (forall_mem_of_readAsValues trimmed_literal hps)) [' ']

/-- Of a line's comment the assembler sees the space before it, at most. -/
theorem trimSpaces_stripComment_lineText (hm : NameChars m.toList) (ht : NameChars ty.toList) (h : ReadAsValues ps vs)
    {tail : List Char} (htail : tail = [] ∨ ∃ comment, tail = ' ' :: '-' :: '-' :: comment) :
    trimSpaces (stripComment (lineText m ty ps ++ tail)) = lineText m ty ps := by
  have hspaces : ∀ c ∈ stripComment tail, c = ' ' := by
    obtain rfl | ⟨comment, rfl⟩ := htail <;> simp [stripComment]
  rw [commentFree_lineText hm ht h]
  exact trimSpaces_of_trimmed (pre := []) (trimmed_lineText hm ht h) (by simp) hspaces

/-- The line's first word ends at the space before the operands. -/
theorem takeWhile_lineText (hm : NameChars m.toList) (ht : NameChars ty.toList) :
    (lineText m ty ps).takeWhile (· ≠ ' ') = m.toList ++ '.' :: ty.toList := by
  have hhead : ∀ c ∈ m.toList ++ '.' :: ty.toList, c ≠ ' ' := by
    simp only [List.mem_append, List.mem_cons]
    rintro c (hc | rfl | hc)
    · exact (hm.2 c hc).1
    · decide
    · exact (ht.2 c hc).1
  rw [lineText, List.takeWhile_append_of_pos (by simpa using hhead)]
  cases ps <;> simp [operandText]

theorem takeWhile_name (hm : NameChars m.toList) (rest : List Char) :
    (m.toList ++ '.' :: rest).takeWhile (· ≠ '.') = m.toList := by
  rw [List.takeWhile_append_of_pos (by simpa using fun c hc => (hm.2 c hc).2.1)]
  simp

theorem dropWhile_name (hm : NameChars m.toList) (rest : List Char) :
    (m.toList ++ '.' :: rest).dropWhile (· ≠ '.') = '.' :: rest := by
  rw [List.dropWhile_append_of_pos (by simpa using fun c hc => (hm.2 c hc).2.1)]
  simp

/-- An assembly line is read as its parts (R56). -/
theorem parseLine_lineText (hm : (m, op, form) ∈ mnemonicTable) (ht : (ty, tsel) ∈ typeTable) (h : ReadAsValues ps vs)
    {tail : List Char} (htail : tail = [] ∨ ∃ comment, tail = ' ' :: '-' :: '-' :: comment) :
    parseLine (lineText m ty ps ++ tail) = some ⟨op, form, tsel, vs⟩ := by
  obtain ⟨-, -, hmnodup, htnodup⟩ := namesOfTheNotation
  have hmc : NameChars m.toList := nameChars_of_mem_mnemonicTable _ hm
  have htc : NameChars ty.toList := nameChars_of_mem_typeTable _ ht
  have hoperands : (lineText m ty ps).drop (m.toList ++ '.' :: ty.toList).length = operandText ps := List.drop_left
  simp only [parseLine, trimSpaces_stripComment_lineText hmc htc h htail, takeWhile_lineText hmc htc, takeWhile_name hmc,
    dropWhile_name hmc, hoperands, List.drop_one, List.tail_cons, find?_name_eq_some hmnodup hm,
    find?_name_eq_some htnodup ht, operandValues_operandText h, Option.bind_some, Option.map_some]

/-- A line with its comment, as text. -/
theorem assembleText_of_toList {text : String} {tail : List Char} (hm : (m, op, form) ∈ mnemonicTable)
    (ht : (ty, tsel) ∈ typeTable) (h : ReadAsValues ps vs)
    (htail : tail = [] ∨ ∃ comment, tail = ' ' :: '-' :: '-' :: comment)
    (htext : text.toList = lineText m ty ps ++ tail) : assembleText text = AsmLine.assemble ⟨op, form, tsel, vs⟩ := by
  rw [assembleText, htext, parseLine_lineText hm ht h htail, Option.bind_some]

/-- Settles O56: the texts are assembly lines with 2, 1, 0 or 3 operands, and the assembler puts these on the ports. -/
theorem assemblerReadsText : Obligations.AssemblerReadsText := by
  intro m op form ty tsel x y a b comment hm ht hx hy tail htail
  have htail' : tail.toList = [] ∨ ∃ c, tail.toList = ' ' :: '-' :: '-' :: c := by
    obtain rfl | rfl := htail
    · exact .inl rfl
    · exact .inr ⟨comment.toList, by simp⟩
  refine ⟨?_, ?_, ?_, ?_⟩
  · rintro rfl
    exact assembleText_of_toList hm ht (.cons hx (.cons hy .nil)) htail' (by simp [lineText, operandText])
  · rintro rfl
    exact assembleText_of_toList hm ht (.cons hx .nil) htail' (by simp [lineText, operandText])
  · rintro rfl
    exact assembleText_of_toList hm ht .nil htail' (by simp [lineText, operandText])
  · rintro rfl
    have hbit {d : List Char} {v : Int} (hd : literalValue d = some v) : ReadAsValues [x.toList, y.toList, d] [a, b, v] :=
      .cons hx (.cons hy (.cons hd .nil))
    exact ⟨assembleText_of_toList hm ht (hbit (d := ['0']) rfl) htail' (by simp [lineText, operandText]),
      assembleText_of_toList hm ht (hbit (d := ['1']) rfl) htail' (by simp [lineText, operandText])⟩

end Lines

end Sys2Proof.TextProofs
